-- ==== Sys2Proof/Word.lean ====
section
/-! DEFINITION. The values of the machine (00_scope.md R6, section 6.1).

The spec writes every register, every operand, `ip` and `ipr` as a signed integer in the range of `W` bits, and does its
arithmetic "on mathematical integers unless `wrap_W` is applied"; `W` is a parameter (R5). The model keeps that form: a
word is an `Int` (written `Int` throughout, so that integer arithmetic applies to it as it stands), and `W` is a field
of State (notes/assumptions/2.md, notes/assumptions/3.md). -/

namespace Sys2Proof

/-- A byte of a program image (20_memory.md R34). -/
abbrev Byte := BitVec 8

end Sys2Proof
end

