-- ==== Sys2Proof/Config.lean ====
section
/-! DEFINITION. What an implementation fixes (00_scope.md R5): the parameters' legal values, the values the model's
machine is instantiated with at reset, and the one thing the spec leaves wholly to the host, the stop predicate. -/

namespace Sys2Proof.Config

/-- `W` of the machine that comes out of reset: R5's default. -/
def defaultW : Nat := 64

/-- `SW` of the machine that comes out of reset: R5's default. -/
def defaultSW : Nat := 64

/-- `N` of the machine that comes out of reset. DESIGN CHOICE (unsafe, notes/assumptions/1.md): R5 gives no default;
6 is one of the counts the spec reports in use. Every statement is about every `N`. -/
def defaultN : Nat := 6

/-- The legal values of the parameters `N`, `W`, `SW` and `L` (R5). -/
abbrev legal (N W SW L : Nat) : Prop :=
  2 ≤ W ∧ 1 ≤ SW ∧ 1 ≤ N ∧ N < 2 ^ (W - 1) ∧ L < 2 ^ (W - 1)

/-- A stop predicate the model knows nothing about: the `k`-th of the arbitrary total functions of the triple (bank,
`ip`, `steps`) a host may attach (44_run_loop.md R113: "an arbitrary total function of the triple"). It has no body, so
what is proved of it holds for every predicate (safe, notes/assumptions/5.md). -/
opaque externalPredicate (k : Nat) (bank : List Int) (ip : Int) (steps : Nat) : Bool

end Sys2Proof.Config
end

