-- ==== Sys2Proof/Machine/Bits.lean ====
section
/-! DEFINITION. The bit-level notation of 00_scope.md section 6.1: two's complement at width `W`, and little-endian
bytes (20_memory.md R34). -/

namespace Sys2Proof

/-- `INT_MIN` at width `W` (section 6.1). -/
def intMin (W : Nat) : Int := -(2 ^ (W - 1))

/-- `INT_MAX` at width `W` (section 6.1). -/
def intMax (W : Nat) : Int := 2 ^ (W - 1) - 1

/-- `v` is a `W`-bit signed value: it lies in `[INT_MIN, INT_MAX]` (section 6.1, R6). -/
def inRange (W : Nat) (v : Int) : Prop := intMin W ≤ v ∧ v ≤ intMax W
  deriving Decidable

/-- `bits_W(v)`: the `W`-bit vector whose unsigned value is `v mod 2^W` (section 6.1). -/
def bits (W : Nat) (v : Int) : BitVec W := BitVec.ofInt W v

/-- `signed_W(b)`: the two's-complement integer that `b` spells (section 6.1). -/
def signed {W : Nat} (b : BitVec W) : Int := b.toInt

/-- `wrap_W(v) = signed_W(bits_W(v))` (section 6.1). -/
def wrap (W : Nat) (v : Int) : Int := signed (bits W v)

/-- `k` bytes of `n`, least significant first (R34). -/
def bytesOf : Nat → Nat → List Byte
  | 0, _ => []
  | k + 1, n => BitVec.ofNat 8 n :: bytesOf k (n / 256)

/-- The number that bytes spell, least significant first (R34). -/
def numberOf : List Byte → Nat
  | [] => 0
  | b :: bs => b.toNat + 256 * numberOf bs

end Sys2Proof
end

