-- ==== Sys2Proof/Machine/Flags.lean ====
section
/-! DEFINITION. The integer ALU. There are no flags, condition codes or predicate registers (10_state.md R24): the
whole result of an operation is the value written to `x[c]`, so what another machine computes into flags is here the 0
or 1 of the compares (43_compare.md R90). -/

namespace Sys2Proof.Machine

/-- Add: `wrap_W` of the exact sum (40_arithmetic.md R65). -/
def aluAdd (W : Nat) (u v : Int) : Int := wrap W (u + v)

/-- Multiply: `wrap_W` of the exact product, the low `W` bits (R65). -/
def aluMul (W : Nat) (u v : Int) : Int := wrap W (u * v)

/-- AND on the two's-complement bits (41_bitwise.md R75). -/
def aluAnd (W : Nat) (u v : Int) : Int := signed (bits W u &&& bits W v)

/-- OR on the two's-complement bits (R75). -/
def aluOr (W : Nat) (u v : Int) : Int := signed (bits W u ||| bits W v)

/-- Greater-than: 1 if left > right in the signed order, else 0 (43_compare.md R90). -/
def aluGt (left right : Int) : Int := if left > right then 1 else 0

/-- Equal: 1 if left = right, else 0 (R90). -/
def aluEq (left right : Int) : Int := if left = right then 1 else 0

end Sys2Proof.Machine
end

