-- ==== Sys2Proof/Syntax.lean ====
section
/-! DEFINITION. The sixteen instructions (30_encoding.md R45, R48): one constructor per row of the opcode table, each
with the three operand fields `a`, `b`, `c` that every instruction carries (R46), the ignored one too (R52). -/

namespace Sys2Proof

/-- An instruction record `(op, a, b, c)` (R45), written `mnemonic(a, b, c)`. -/
inductive Instr where
  /-- `r[c] = r[a] + r[b]` (R66) -/
  | addr (a b c : Int)
  /-- `r[c] = r[a] + b` (R67) -/
  | addi (a b c : Int)
  /-- `r[c] = r[a] * r[b]` (R68) -/
  | mulr (a b c : Int)
  /-- `r[c] = r[a] * b` (R69) -/
  | muli (a b c : Int)
  /-- `r[c] = r[a] & r[b]` (R76) -/
  | banr (a b c : Int)
  /-- `r[c] = r[a] & b` (R77) -/
  | bani (a b c : Int)
  /-- `r[c] = r[a] | r[b]` (R78) -/
  | borr (a b c : Int)
  /-- `r[c] = r[a] | b` (R79) -/
  | bori (a b c : Int)
  /-- `r[c] = r[a]`, `b` ignored (R86) -/
  | setr (a b c : Int)
  /-- `r[c] = a`, `b` ignored (R87) -/
  | seti (a b c : Int)
  /-- `r[c] = 1` if `r[a] > r[b]` else `0` (R91) -/
  | gtrr (a b c : Int)
  /-- `r[c] = 1` if `r[a] > b` else `0` (R92) -/
  | gtri (a b c : Int)
  /-- `r[c] = 1` if `a > r[b]` else `0` (R93) -/
  | gtir (a b c : Int)
  /-- `r[c] = 1` if `r[a] == r[b]` else `0` (R94) -/
  | eqrr (a b c : Int)
  /-- `r[c] = 1` if `r[a] == b` else `0` (R95) -/
  | eqri (a b c : Int)
  /-- `r[c] = 1` if `a == r[b]` else `0` (R96) -/
  | eqir (a b c : Int)
  deriving DecidableEq, Repr

/-- What an operand field is for an opcode (R49). -/
inductive OperandKind where
  /-- `R`: the field is a register index. -/
  | register
  /-- `I`: the field is the value itself. -/
  | immediate
  /-- `-`: the field is not read. -/
  | ignored
  deriving DecidableEq, Repr

end Sys2Proof
end

