-- ==== Sys2Proof/Machine/Kinds.lean ====
section
/-! DEFINITION. The fields of an instruction record (30_encoding.md R45) and the kinds of its operands, the table of
R49, written apart from the meanings so that statements can hold the two against each other;
and which indices are registers. -/

namespace Sys2Proof

/-- The field `a` of a record. -/
def Instr.a : Instr → Int
  | .addr a _ _ | .addi a _ _ | .mulr a _ _ | .muli a _ _ => a
  | .banr a _ _ | .bani a _ _ | .borr a _ _ | .bori a _ _ => a
  | .setr a _ _ | .seti a _ _ => a
  | .gtrr a _ _ | .gtri a _ _ | .gtir a _ _ => a
  | .eqrr a _ _ | .eqri a _ _ | .eqir a _ _ => a

/-- The field `b` of a record. -/
def Instr.b : Instr → Int
  | .addr _ b _ | .addi _ b _ | .mulr _ b _ | .muli _ b _ => b
  | .banr _ b _ | .bani _ b _ | .borr _ b _ | .bori _ b _ => b
  | .setr _ b _ | .seti _ b _ => b
  | .gtrr _ b _ | .gtri _ b _ | .gtir _ b _ => b
  | .eqrr _ b _ | .eqri _ b _ | .eqir _ b _ => b

/-- The field `c` of a record, the destination register index (R53). -/
def Instr.c : Instr → Int
  | .addr _ _ c | .addi _ _ c | .mulr _ _ c | .muli _ _ c => c
  | .banr _ _ c | .bani _ _ c | .borr _ _ c | .bori _ _ c => c
  | .setr _ _ c | .seti _ _ c => c
  | .gtrr _ _ c | .gtri _ _ c | .gtir _ _ c => c
  | .eqrr _ _ c | .eqri _ _ c | .eqir _ _ c => c

/-- The kind of operand `a`, the second column of R49's table. -/
def Instr.kindA : Instr → OperandKind
  | .addr .. | .mulr .. | .banr .. | .borr .. => .register
  | .addi .. | .muli .. | .bani .. | .bori .. => .register
  | .setr .. => .register
  | .seti .. => .immediate
  | .gtrr .. | .eqrr .. => .register
  | .gtri .. | .eqri .. => .register
  | .gtir .. | .eqir .. => .immediate

/-- The kind of operand `b`, the third column of R49's table. The kind of `c` is always a register, the destination. -/
def Instr.kindB : Instr → OperandKind
  | .addr .. | .mulr .. | .banr .. | .borr .. => .register
  | .addi .. | .muli .. | .bani .. | .bori .. => .immediate
  | .setr .. | .seti .. => .ignored
  | .gtrr .. | .eqrr .. => .register
  | .gtri .. | .eqri .. => .immediate
  | .gtir .. | .eqir .. => .register

/-- `r` is the index of a register of a bank of `N` (10_state.md R13, 30_encoding.md R57: "in `[0, N)`"). -/
def isRegister (N : Nat) (r : Int) : Prop := 0 ≤ r ∧ r < (N : Int)
  deriving Decidable

end Sys2Proof
end

