-- ==== Sys2Proof/WellFormed.lean ====
section
/-! DEFINITION. Two checks on instructions. `Instr.fits`: the operands are `W`-bit signed integers (30_encoding.md
R45), which is what makes a record one the packed word can carry. `Instr.wellFormed`: every register operand and the
destination lie in `[0, N)` (R57), under which an instruction never aborts. -/

namespace Sys2Proof

/-- The three operand fields are `W`-bit signed integers (R45). -/
abbrev Instr.fits (W : Nat) (i : Instr) : Prop := inRange W i.a ∧ inRange W i.b ∧ inRange W i.c

/-- The `c` field and every field that R49 marks `R` is in `[0, N)` (R57). -/
abbrev Instr.wellFormed (N : Nat) (i : Instr) : Prop :=
  (i.kindA = .register → isRegister N i.a) ∧ (i.kindB = .register → isRegister N i.b) ∧ isRegister N i.c

/-- A list of instructions with a nominated index on a machine of `N` registers is well-formed (R57). -/
abbrev programWellFormed (N : Nat) (ipr : Int) (P : List Instr) : Prop :=
  isRegister N ipr ∧ ∀ i ∈ P, i.wellFormed N

end Sys2Proof
end

