-- ==== Sys2Proof/Decode.lean ====
section
/-! DEFINITION. The packed instruction word (30_encoding.md R47, R48), its decoder (R55: total on words), its encoder,
and the byte form of an image (20_memory.md R34, R59). -/

namespace Sys2Proof

/-- The width of the packed word, `3W + 4` bits (R47). -/
abbrev wordBits (W : Nat) : Nat := W + (W + (W + 4))

/-- The bytes a word occupies in an image, `ceil((3W + 4) / 8)` (R34). -/
def wordBytes (W : Nat) : Nat := (wordBits W + 7) / 8

/-- The opcode number of a record (R48). -/
def Instr.opNumber : Instr → BitVec 4
  | .addr .. => 0
  | .addi .. => 1
  | .mulr .. => 2
  | .muli .. => 3
  | .banr .. => 4
  | .bani .. => 5
  | .borr .. => 6
  | .bori .. => 7
  | .setr .. => 8
  | .seti .. => 9
  | .gtrr .. => 10
  | .gtri .. => 11
  | .gtir .. => 12
  | .eqrr .. => 13
  | .eqri .. => 14
  | .eqir .. => 15

/-- The record with opcode number `op` (R48). All sixteen values are defined and none is reserved (R56), so the last arm
is number 15 and no other. -/
def Instr.ofFields (op : BitVec 4) (a b c : Int) : Instr :=
  match op.toNat with
  | 0 => .addr a b c
  | 1 => .addi a b c
  | 2 => .mulr a b c
  | 3 => .muli a b c
  | 4 => .banr a b c
  | 5 => .bani a b c
  | 6 => .borr a b c
  | 7 => .bori a b c
  | 8 => .setr a b c
  | 9 => .seti a b c
  | 10 => .gtrr a b c
  | 11 => .gtri a b c
  | 12 => .gtir a b c
  | 13 => .eqrr a b c
  | 14 => .eqri a b c
  | _ => .eqir a b c

/-- Decoding a packed word (R47, R55): `op = word[3:0]`, `c = signed_W(word[W+3:4])`, `b = signed_W(word[2W+3:W+4])`,
`a = signed_W(word[3W+3:2W+4])`. Total. -/
def decodeWord (W : Nat) (word : BitVec (wordBits W)) : Instr :=
  Instr.ofFields (word.extractLsb' 0 4)
    (signed (word.extractLsb' (W + (W + 4)) W))
    (signed (word.extractLsb' (W + 4) W))
    (signed (word.extractLsb' 4 W))

/-- Why bytes are not the image of a packed word. -/
inductive DecodeError where
  /-- Fewer bytes than one word takes. Safe: no instruction is read. -/
  | truncated
  /-- The unused high bits of the last byte are not zero (R34). Safe: no instruction is read. -/
  | paddingNotZero
  deriving DecidableEq, Repr

/-- Decoding the first word of a byte image: the instruction and the bytes after it. Total on any bytes; rejects by name
what R34 does not allow as the image of a word. -/
def decode (W : Nat) (bytes : List Byte) : Except DecodeError (Instr × List Byte) :=
  if bytes.length < wordBytes W then .error .truncated
  else
    let n := numberOf (bytes.take (wordBytes W))
    if 2 ^ wordBits W ≤ n then .error .paddingNotZero
    else .ok (decodeWord W (BitVec.ofNat (wordBits W) n), bytes.drop (wordBytes W))

/-- Packing a record into its word, `bits_W(a) ‖ bits_W(b) ‖ bits_W(c) ‖ op4` (R47). -/
def encodeWord (W : Nat) (i : Instr) : BitVec (wordBits W) :=
  bits W i.a ++ (bits W i.b ++ (bits W i.c ++ i.opNumber))

/-- The bytes of a record's word (R34). -/
def encode (W : Nat) (i : Instr) : List Byte := bytesOf (wordBytes W) (encodeWord W i).toNat

/-- A program image: the packed words in program order with no header (R34, R59). -/
def encodeProgram (W : Nat) : List Instr → List Byte
  | [] => []
  | i :: P => encode W i ++ encodeProgram W P

/-- The host's question about one row of the opcode table, at the table's own width `W = 64` (its `encoding_W64`
column): the instruction of the word whose low `nbits` bits are `w` and whose other bits are zero. -/
def decodeTableWord (nbits w : Nat) : Option Instr :=
  match decode Config.defaultW (bytesOf (wordBytes Config.defaultW) (w % 2 ^ nbits)) with
  | .ok (i, _) => some i
  | .error _ => none

end Sys2Proof
end

