-- ==== Sys2Proof/Machine/State.lean ====
section
/-! DEFINITION. The architectural state (10_state.md section 1, R25), what stops a step or a host command, and the state
after reset (R23). -/

namespace Sys2Proof.Machine

/-- The status of the machine (10_state.md R19). Values 5 to 7 of the 3-bit field are never produced, so there is no
constructor for them. -/
inductive Status where
  /-- 0: constructed, no run since. -/
  | idle
  /-- 1: a `run` is in progress. -/
  | running
  /-- 2: the last run ended because `ip` left `[0, L)`. -/
  | halted
  /-- 3: the last run ended because the predicate answered true. -/
  | stopped
  /-- 4: the last run ended in a fault. -/
  | aborted
  deriving DecidableEq, Repr

/-- The cause of the abort (60_exceptions.md R131). Codes 5 to 7 are never produced. -/
inductive Cause where
  /-- 0: `cause` when not ABORTED. -/
  | none
  /-- 1 `IPR_RANGE`: step (a) found `ipr` outside `[0, N)`. -/
  | iprRange
  /-- 2 `SRC_A_RANGE`: register operand `a` outside `[0, N)`. -/
  | srcARange
  /-- 3 `SRC_B_RANGE`: register operand `b` outside `[0, N)`. -/
  | srcBRange
  /-- 4 `DST_C_RANGE`: destination `c` outside `[0, N)`. -/
  | dstCRange
  deriving DecidableEq, Repr

/-- The stop predicate attached to the monitor port (44_run_loop.md R113), as plain data. The forms after `absent` are
the uses R145 lists (single-stepping and a step bound, a breakpoint, a watchpoint) and their Boolean combinations;
`external` stands for any other total function of the triple, of which nothing is known (notes/assumptions/5.md). -/
inductive Monitor where
  /-- No monitor is attached: the answer is always false (D16). -/
  | absent
  /-- True when `steps` is `n`. -/
  | stepsEq (n : Nat)
  /-- True when `ip` is `p`. -/
  | ipEq (p : Int)
  /-- True when register `i` exists and holds `v`; false when there is no such register (notes/assumptions/13.md). -/
  | regEq (i v : Int)
  | neg (m : Monitor)
  | conj (m₁ m₂ : Monitor)
  | disj (m₁ m₂ : Monitor)
  /-- The arbitrary predicate `Config.externalPredicate k`. -/
  | external (k : Nat)
  deriving DecidableEq, Repr

/-- What an address of the image that is not listed reads as: 0. The zero bytes of a presented image are the ones not
listed (notes/assumptions/4.md). -/
def unlistedByte : Byte := 0

/-- The program store (20_memory.md R30): `len` = `L` packed words, held as the bytes of their image (R34, R59) in
canonical form: addresses strictly rising, no byte equal to what an unlisted address reads as. -/
structure Program where
  len : Nat
  image : List Host.Cell
  deriving DecidableEq, Repr

/-- The whole state (10_state.md R25). `N` is the length of `bank`. -/
structure State where
  /-- `W`, the width of a register, of `ip` and of an operand field (00_scope.md R5); fixed at instantiation. -/
  W : Nat
  /-- `SW`, the width of `steps` (R5); fixed at instantiation. -/
  SW : Nat
  /-- `x[0] .. x[N-1]` (R10). -/
  bank : List Int
  /-- The instruction pointer (R15). -/
  ip : Int
  /-- The latched index of the instruction-pointer register (R16). -/
  ipr : Int
  /-- Instructions executed in the current run, modulo `2^SW` (R17). -/
  steps : Nat
  /-- R19 -/
  status : Status
  /-- Why the machine aborted (R18). -/
  cause : Cause
  /-- On what index the machine aborted (R18). -/
  fval : Int
  /-- The program presented by the program store (R21, R30). -/
  program : Program
  /-- The predicate attached to the monitor port (R21, R113). -/
  monitor : Monitor
  deriving DecidableEq, Repr

/-- What would stop the machine with a fault. The machine's one exception, the abort, is NOT here: R133 describes its
entry, so it is a next state with `status` ABORTED. -/
inductive Fault where
  /-- Raised by `State.fetch` on a position outside `[0, L)`, which is no address at all (20_memory.md R37). Safe. No
  step raises it, since the loop condition is tested first (R32: "it is never called out of range"). -/
  | noSuchPosition (p : Int)
  deriving DecidableEq, Repr

/-- What is refused and changes nothing. All but the first are the host port's answers (70_reset_and_hazards.md R159). -/
inductive Refusal where
  /-- An instruction that has no meaning yet; raised by `exec` only. Safe. No arm raises it: all sixteen are modelled. -/
  | notModelled (mnemonic : String)
  /-- The host port: the command is refused while RUNNING (10_state.md R22, 20_memory.md R33, 44_run_loop.md R105). The
  hardware's own answer, hence safe. -/
  | whileRunning
  /-- The host port: `run` and register writes are refused while ABORTED (R22, R105, R136). The hardware's own answer,
  hence safe. -/
  | whileAborted
  /-- The host port: a register index outside `[0, N)` (R22). The hardware's own answer, hence safe. -/
  | noSuchRegister (i : Int)
  /-- The host port: there is no control register of this number (R20). Safe. -/
  | noSuchControlRegister (k : Nat)
  /-- The host port: the value offered is no `W`-bit value, so no port can carry it (R22, R105). Safe. -/
  | notAWord (v : Int)
  /-- The host port: the bytes offered are no whole number of packed words with zero padding (R34, R59). Safe. -/
  | malformedImage
  /-- The host port: the program offered is longer than R5 allows, `L < 2^(W-1)`. Safe. -/
  | programTooLong (L : Nat)
  deriving DecidableEq, Repr

/-- The answer of a step or of a meaning. -/
abbrev Result := Host.Outcome State Fault Refusal

/-- The machine out of power-on, which is the constructed state (10_state.md R23, 70_reset_and_hazards.md R155). The
values of `W`, `SW` and `N`, the empty program and the absent monitor are the model's (notes/assumptions/1.md, 2.md,
4.md, 5.md). -/
def State.reset : State where
  W := Config.defaultW
  SW := Config.defaultSW
  bank := List.replicate Config.defaultN 0
  ip := 0
  ipr := 0
  steps := 0
  status := .idle
  cause := .none
  fval := 0
  program := { len := 0, image := [] }
  monitor := .absent

end Sys2Proof.Machine
end

