-- ==== Sys2Proof/Machine/Memory.lean ====
section
/-! DEFINITION. The operations over the program store: single bytes of the image in canonical form, and the fetch of one
whole record by position (20_memory.md R30, R32), which is the only access the machine itself makes. -/

namespace Sys2Proof.Machine

/-- The canonical form: addresses strictly rising, no entry that an unlisted address would read as. -/
abbrev Mem.wf (m : List Host.Cell) : Prop :=
  m.Pairwise (fun x y => x.1 < y.1) ∧ ∀ x ∈ m, x.2 ≠ unlistedByte

/-- The byte at an address. -/
def Mem.read : List Host.Cell → Nat → Byte
  | [], _ => unlistedByte
  | (k, v) :: m, a => if a = k then v else Mem.read m a

/-- Entry `(a, b)` before `m`, unless `b` is what an unlisted address reads as. -/
def Mem.cons (a : Nat) (b : Byte) (m : List Host.Cell) : List Host.Cell :=
  if b = unlistedByte then m else (a, b) :: m

/-- Writing one byte, keeping the canonical form. -/
def Mem.write : List Host.Cell → Nat → Byte → List Host.Cell
  | [], a, b => Mem.cons a b []
  | (k, v) :: m, a, b =>
    if a < k then Mem.cons a b ((k, v) :: m)
    else if a = k then Mem.cons a b m
    else (k, v) :: Mem.write m a b

/-- Writing bytes at rising addresses. -/
def Mem.writeBytes : List Host.Cell → Nat → List Byte → List Host.Cell
  | m, _, [] => m
  | m, a, b :: bs => Mem.writeBytes (Mem.write m a b) (a + 1) bs

/-- Reading `n` bytes at rising addresses. -/
def Mem.readBytes (m : List Host.Cell) : Nat → Nat → List Byte
  | _, 0 => []
  | a, n + 1 => Mem.read m a :: Mem.readBytes m (a + 1) n

/-- The store that holds exactly these bytes from address `a` on. -/
def Mem.ofBytes : Nat → List Byte → List Host.Cell
  | _, [] => []
  | a, b :: bs => Mem.cons a b (Mem.ofBytes (a + 1) bs)

/-- The packed word at position `p` of a store of `W`-bit records (R30, R59): the low `3W + 4` bits of its bytes. -/
def Program.word (W : Nat) (P : Program) (p : Nat) : BitVec (wordBits W) :=
  BitVec.ofNat (wordBits W) (numberOf (Mem.readBytes P.image (p * wordBytes W) (wordBytes W)))

/-- The record at position `p` (R32). Decoding at each fetch or once at load cannot be told apart (R55;
notes/assumptions/14.md). -/
def Program.record (W : Nat) (P : Program) (p : Nat) : Instr := decodeWord W (P.word W p)

/-- `0 <= p < L`: `p` is a position of the program (R37). -/
def Program.Holds (P : Program) (p : Int) : Prop := 0 ≤ p ∧ p < (P.len : Int)
  deriving Decidable

/-- Replacing the bytes of position `p`, lengthening the program to hold it. -/
def Program.place (W : Nat) (P : Program) (p : Nat) (bytes : List Byte) : Program where
  len := max P.len (p + 1)
  image := Mem.writeBytes P.image (p * wordBytes W) (bytes.take (wordBytes W))

/-- The `n` packed words of an image from its start: each `wordBytes W` bytes, padding bits zero (R34). -/
def imageOk (W : Nat) : Nat → List Byte → Bool
  | 0, bytes => bytes.isEmpty
  | n + 1, bytes =>
    match decode W bytes with
    | .ok (_, rest) => imageOk W n rest
    | .error _ => false

/-- The program that a byte image presents (R34, R59), if the bytes are a whole number of packed words. -/
def Program.ofImage (W : Nat) (bytes : List Byte) : Option Program :=
  let L := bytes.length / wordBytes W
  if imageOk W L bytes then some { len := L, image := Mem.ofBytes 0 bytes } else none

/-- `Fetch(p)` (R32). Defined only for `0 <= p < L`. -/
def State.fetch (s : State) (p : Int) : Except Fault Instr :=
  if s.program.Holds p then .ok (s.program.record s.W p.toNat) else .error (.noSuchPosition p)

end Sys2Proof.Machine
end

