-- ==== Sys2Proof/Machine/Ops.lean ====
section
/-! DEFINITION. The named operations over registers and control state: the checked accesses (10_state.md R13, R14), the
abort (60_exceptions.md R133), `construct` (70_reset_and_hazards.md R155) and `run` (44_run_loop.md R105). -/

namespace Sys2Proof.Machine

/-- `N`, the number of registers (10_state.md R10). -/
def State.N (s : State) : Nat := s.bank.length

/-- The value of register `i` of a bank; only called with `0 <= i < N`. -/
def State.reg (s : State) (i : Int) : Int := s.bank.getD i.toNat 0

/-- The state in which register `i` holds `v` and every other register keeps its value; only called with `0 <= i < N`. -/
def State.setReg (s : State) (i v : Int) : State := { s with bank := s.bank.set i.toNat v }

/-- Taking the exception (60_exceptions.md R133): `cause`, `fval` and `status` are written; `ip`, `ipr`, `steps` and
every register keep their values. Control goes nowhere. It is a next state (notes/assumptions/12.md). -/
def State.abort (s : State) (code : Cause) (val : Int) : State :=
  { s with cause := code, fval := val, status := .aborted }

/-- Checked register read (10_state.md R13): the value goes to the rest of the instruction, or the machine aborts. -/
def State.readReg (s : State) (code : Cause) (i : Int) (k : Int → Result) : Result :=
  if isRegister s.N i then k (s.reg i) else .next (s.abort code i)

/-- Checked register write (10_state.md R14). -/
def State.writeReg (s : State) (code : Cause) (i v : Int) : Result :=
  if isRegister s.N i then .next (s.setReg i v) else .next (s.abort code i)

/-- `construct` (70_reset_and_hazards.md R155, 10_state.md R23): the only way out of ABORTED (R136). The parameters, the
program store and what is attached to the monitor port are not touched. -/
def State.construct (s : State) : State :=
  { s with
    bank := List.replicate s.N 0, ip := 0, ipr := 0, steps := 0, status := .idle, cause := .none, fval := 0 }

/-- A machine instantiated with parameters `N`, `W` and `SW` (00_scope.md R5), as `construct` leaves it and as it powers on
(R155), with nothing presented and nothing attached. `State.reset` is this at the model's own parameters. -/
def State.instantiated (N W SW : Nat) : State where
  W := W
  SW := SW
  bank := List.replicate N 0
  ip := 0
  ipr := 0
  steps := 0
  status := .idle
  cause := .none
  fval := 0
  program := { len := 0, image := [] }
  monitor := .absent

/-- `run(IPR, initial_ip)`, once accepted (44_run_loop.md R105). The bank is not touched. -/
def State.startRun (s : State) (ipr ip : Int) : State :=
  { s with ipr := ipr, ip := ip, steps := 0, cause := .none, fval := 0, status := .running }

/-- The number of a status (10_state.md R19). -/
def Status.number : Status → Nat
  | .idle => 0
  | .running => 1
  | .halted => 2
  | .stopped => 3
  | .aborted => 4

/-- The code of a cause (60_exceptions.md R131). -/
def Cause.number : Cause → Nat
  | .none => 0
  | .iprRange => 1
  | .srcARange => 2
  | .srcBRange => 3
  | .dstCRange => 4

/-- The answer of a predicate to the triple (44_run_loop.md R113). -/
def Monitor.answer (bank : List Int) (ip : Int) (steps : Nat) : Monitor → Bool
  | .absent => false
  | .stepsEq n => steps == n
  | .ipEq p => ip == p
  | .regEq i v => decide (isRegister bank.length i) && bank.getD i.toNat 0 == v
  | .neg m => !m.answer bank ip steps
  | .conj m₁ m₂ => m₁.answer bank ip steps && m₂.answer bank ip steps
  | .disj m₁ m₂ => m₁.answer bank ip steps || m₂.answer bank ip steps
  | .external k => Config.externalPredicate k bank ip steps

/-- `shouldStop(x, ip, steps)` (44_run_loop.md R113). A pure observation: it answers and changes nothing. -/
def State.shouldStop (s : State) : Bool := s.monitor.answer s.bank s.ip s.steps

end Sys2Proof.Machine
end

