-- ==== Sys2Proof/Machine/Operands.lean ====
section
/-! DEFINITION. The operand forms (30_encoding.md R49 to R53). A register operand is a checked access that aborts with
the code of its field (60_exceptions.md R131); an immediate is the field itself (R50); an ignored field is not named at
all (R52). The order of the calls in a meaning is the order `a`, `b`, `c` of R135. -/

namespace Sys2Proof.Machine

/-- A register operand in field `a`: code 2 when out of range (R131). -/
def State.regA (s : State) (a : Int) (k : Int → Result) : Result := s.readReg .srcARange a k

/-- A register operand in field `b`: code 3 when out of range (R131). -/
def State.regB (s : State) (b : Int) (k : Int → Result) : Result := s.readReg .srcBRange b k

/-- An immediate operand: its field, neither shifted, scaled, extended nor truncated (R50). -/
def immediate (field : Int) : Int := field

/-- The destination, field `c`: the one write of every instruction (R53), code 4 when out of range (R131). -/
def State.writeC (s : State) (c v : Int) : Result := s.writeReg .dstCRange c v

end Sys2Proof.Machine
end

