-- ==== Sys2Proof/Machine/Arithmetic.lean ====
section
/-! DEFINITION. The add and multiply families (40_arithmetic.md). Overflow wraps, there is no flag and no trap (R65). -/

namespace Sys2Proof.Machine

/-- `addr` (R66): `x[c] <- wrap_W(x[a] + x[b])`. -/
def execAddr (a b c : Int) (s : State) : Result :=
  s.regA a fun va =>
  s.regB b fun vb =>
  s.writeC c (aluAdd s.W va vb)

/-- `addi` (R67): `x[c] <- wrap_W(x[a] + b)`. -/
def execAddi (a b c : Int) (s : State) : Result :=
  s.regA a fun va =>
  s.writeC c (aluAdd s.W va (immediate b))

/-- `mulr` (R68): `x[c] <- wrap_W(x[a] * x[b])`. -/
def execMulr (a b c : Int) (s : State) : Result :=
  s.regA a fun va =>
  s.regB b fun vb =>
  s.writeC c (aluMul s.W va vb)

/-- `muli` (R69): `x[c] <- wrap_W(x[a] * b)`. -/
def execMuli (a b c : Int) (s : State) : Result :=
  s.regA a fun va =>
  s.writeC c (aluMul s.W va (immediate b))

end Sys2Proof.Machine
end

