-- ==== Sys2Proof/Machine/Bitwise.lean ====
section
/-! DEFINITION. The AND and OR families (41_bitwise.md), on the two's-complement bits (R75). -/

namespace Sys2Proof.Machine

/-- `banr` (R76): `x[c] <- x[a] & x[b]`. -/
def execBanr (a b c : Int) (s : State) : Result :=
  s.regA a fun va =>
  s.regB b fun vb =>
  s.writeC c (aluAnd s.W va vb)

/-- `bani` (R77): `x[c] <- x[a] & b`. -/
def execBani (a b c : Int) (s : State) : Result :=
  s.regA a fun va =>
  s.writeC c (aluAnd s.W va (immediate b))

/-- `borr` (R78): `x[c] <- x[a] | x[b]`. -/
def execBorr (a b c : Int) (s : State) : Result :=
  s.regA a fun va =>
  s.regB b fun vb =>
  s.writeC c (aluOr s.W va vb)

/-- `bori` (R79): `x[c] <- x[a] | b`. -/
def execBori (a b c : Int) (s : State) : Result :=
  s.regA a fun va =>
  s.writeC c (aluOr s.W va (immediate b))

end Sys2Proof.Machine
end

