-- ==== Sys2Proof/Machine/Compare.lean ====
section
/-! DEFINITION. The greater-than and equal families (43_compare.md): signed, strict, the result 0 or 1 (R90). -/

namespace Sys2Proof.Machine

/-- `gtrr` (R91): 1 if `x[a] > x[b]` else 0. -/
def execGtrr (a b c : Int) (s : State) : Result :=
  s.regA a fun va =>
  s.regB b fun vb =>
  s.writeC c (aluGt va vb)

/-- `gtri` (R92): 1 if `x[a] > b` else 0. -/
def execGtri (a b c : Int) (s : State) : Result :=
  s.regA a fun va =>
  s.writeC c (aluGt va (immediate b))

/-- `gtir` (R93): 1 if `a > x[b]` else 0. -/
def execGtir (a b c : Int) (s : State) : Result :=
  s.regB b fun vb =>
  s.writeC c (aluGt (immediate a) vb)

/-- `eqrr` (R94): 1 if `x[a] == x[b]` else 0. -/
def execEqrr (a b c : Int) (s : State) : Result :=
  s.regA a fun va =>
  s.regB b fun vb =>
  s.writeC c (aluEq va vb)

/-- `eqri` (R95): 1 if `x[a] == b` else 0. -/
def execEqri (a b c : Int) (s : State) : Result :=
  s.regA a fun va =>
  s.writeC c (aluEq va (immediate b))

/-- `eqir` (R96): 1 if `a == x[b]` else 0. -/
def execEqir (a b c : Int) (s : State) : Result :=
  s.regB b fun vb =>
  s.writeC c (aluEq (immediate a) vb)

end Sys2Proof.Machine
end

