-- ==== Sys2Proof/Machine/SetFamily.lean ====
section
/-! DEFINITION. The set family (42_set.md): a copy, nothing computed; `b` is neither read nor checked (R85). -/

namespace Sys2Proof.Machine

/-- `setr` (R86): `x[c] <- x[a]`. -/
def execSetr (a _b c : Int) (s : State) : Result :=
  s.regA a fun va =>
  s.writeC c va

/-- `seti` (R87): `x[c] <- a`. Reads no register. -/
def execSeti (a _b c : Int) (s : State) : Result :=
  s.writeC c (immediate a)

end Sys2Proof.Machine
end

