-- ==== Sys2Proof/Machine/RunLoop.lean ====
section
/-! DEFINITION. The run loop (44_run_loop.md): one step is one iteration (R107), in the order of the document's letters
(a), stop check, (b), (c), (d). -/

namespace Sys2Proof.Machine

/-- The lines after one that may `raise Abort`: an abort ends the step at once (60_exceptions.md R133). -/
def Result.thenLine (r : Result) (line : State → Result) : Result :=
  match r with
  | .next t => if t.status = .aborted then .next t else line t
  | .fault f => .fault f
  | .refused q => .refused q

/-- The end of a run with this status; nothing else changes (R106, R113). -/
def State.endRun (s : State) (status : Status) : State := { s with status := status }

/-- Step (a): the checked write `x[ipr] <- ip` (R108). -/
def State.stepA (s : State) : Result := s.writeReg .iprRange s.ipr s.ip

/-- Step (b): execute the instruction at position `ip` (R109). -/
def State.stepB (s : State) : Result :=
  match s.fetch s.ip with
  | .ok i => exec i s
  | .error f => .fault f

/-- Step (c): `ip <- x[ipr]`, with no check of any kind (R110). -/
def State.stepC (s : State) : State := { s with ip := s.reg s.ipr }

/-- Step (d): `ip <- wrap_W(ip + 1)` (R111), and the step counter (R112). -/
def State.stepD (s : State) : State :=
  { s with ip := wrap s.W (s.ip + 1), steps := (s.steps + 1) % 2 ^ s.SW }

/-- One iteration of the loop, from a state with `status = RUNNING` (R107). -/
def State.iterate (s : State) : Result :=
  if ¬ s.program.Holds s.ip then .next (s.endRun .halted)
  else
    s.stepA.thenLine fun s₁ =>
      if s₁.shouldStop then .next (s₁.endRun .stopped)
      else s₁.stepB.thenLine fun s₂ => .next s₂.stepC.stepD

/-- One step of the machine: an iteration while RUNNING; in IDLE, HALTED, STOPPED and ABORTED the machine holds its state
and does nothing until the next host command (60_exceptions.md R146). -/
def State.advance (s : State) : Result :=
  if s.status = .running then s.iterate else .next s

/-- The machine about to fetch the given bytes as its next instruction: they stand at position `ip` (at position 0 if
`ip` is negative), no monitor stops the run, and a machine that is not running has a run started on it, with its own
`ipr` if that is a register and register 0 if not (notes/assumptions/6.md). -/
def State.loadNext (s : State) (bytes : List Byte) : State :=
  let p : Int := if 0 ≤ s.ip then s.ip else 0
  let r : Int := if isRegister s.N s.ipr then s.ipr else 0
  let t : State := { s with program := s.program.place s.W p.toNat bytes, monitor := .absent }
  if s.status = .running then { t with ip := p, ipr := r } else t.startRun r p

end Sys2Proof.Machine
end

