-- ==== Sys2Proof/Machine/Step.lean ====
section
/-! DEFINITION. The step of the machine, and how the host places one instruction word in front of it. -/

namespace Sys2Proof.Machine

/-- One step (44_run_loop.md R107, 60_exceptions.md R146). -/
def step (s : State) : Host.Outcome State Fault Refusal := s.advance

/-- `s` with the instruction whose low `nbits` bits are `w` (the others zero) where `step` fetches next, and the run that
makes it fetch (notes/assumptions/6.md). -/
def State.withFetchWord (s : State) (nbits w : Nat) : State :=
  s.loadNext (bytesOf (wordBytes s.W) (w % 2 ^ nbits % 2 ^ wordBits s.W))

end Sys2Proof.Machine
end

