-- ==== Sys2Proof/Machine/HostPort.lean ====
section
/-! DEFINITION. The host's four ports (70_reset_and_hazards.md R157), transaction by transaction. The host acts between
steps only; `hostCommand` is the machine's answer (R159, last column), `hostMay` what the host may do (R159, second
column). The monitor's query is inside the step (44_run_loop.md R113). The conventions are
notes/assumptions/7.md to 10.md. -/

namespace Sys2Proof.Machine

/-- What the host can present at a port (R157, 10_state.md R20, R22). -/
inductive HostCommand where
  /-- `construct` (R155), also power-on. -/
  | construct
  /-- `run(IPR, initial_ip)` (44_run_loop.md R105). -/
  | run (ipr initialIp : Int)
  /-- Read register `x[i]` (R22). -/
  | readReg (i : Int)
  /-- Write register `x[i]` (R22). -/
  | writeReg (i v : Int)
  /-- Read control register CR`k` (R20). -/
  | readCr (k : Nat)
  /-- Present a program as the bytes of its image (20_memory.md R33, 30_encoding.md R59). -/
  | present (image : List Byte)
  /-- Attach a monitor to the monitor port; `attach .absent` detaches it (R159). -/
  | attach (m : Monitor)
  deriving DecidableEq, Repr

/-- What a port answers when the command is performed. -/
inductive HostReply where
  /-- Performed, no value. -/
  | done
  /-- The value of a register, of `ip`, `ipr` or `fval`. -/
  | word (v : Int)
  /-- The content of STATUS, CAUSE or STEPS; the upper bits read 0 (R20). -/
  | number (n : Nat)
  /-- CR6, CONFIG: the four fields in R20's order. -/
  | config (N W SW L : Nat)
  deriving DecidableEq, Repr

/-- The control registers CR0 to CR6 (10_state.md R20). -/
def State.controlRegister (s : State) (k : Nat) : Option HostReply :=
  match k with
  | 0 => some (.number s.status.number)
  | 1 => some (.number s.cause.number)
  | 2 => some (.word s.ip)
  | 3 => some (.word s.ipr)
  | 4 => some (.number s.steps)
  | 5 => some (.word s.fval)
  | 6 => some (.config s.N s.W s.SW s.program.len)
  | _ => none

/-- `run` at the command port (44_run_loop.md R105): refused in RUNNING and ABORTED. `IPR` is not checked against `N`
here (R108); both arguments are `W`-bit values. -/
def State.hostRun (s : State) (ipr ip : Int) : Host.Outcome (HostReply × State) Fault Refusal :=
  if s.status = .running then .refused .whileRunning
  else if s.status = .aborted then .refused .whileAborted
  else if ¬ inRange s.W ipr then .refused (.notAWord ipr)
  else if ¬ inRange s.W ip then .refused (.notAWord ip)
  else .next (.done, s.startRun ipr ip)

/-- A register read at the access port (10_state.md R22). -/
def State.hostReadReg (s : State) (i : Int) : Host.Outcome (HostReply × State) Fault Refusal :=
  if s.status = .running then .refused .whileRunning
  else if ¬ isRegister s.N i then .refused (.noSuchRegister i)
  else .next (.word (s.reg i), s)

/-- A register write at the access port (R22): also refused while ABORTED (90_conflicts.md C11). -/
def State.hostWriteReg (s : State) (i v : Int) : Host.Outcome (HostReply × State) Fault Refusal :=
  if s.status = .running then .refused .whileRunning
  else if s.status = .aborted then .refused .whileAborted
  else if ¬ isRegister s.N i then .refused (.noSuchRegister i)
  else if ¬ inRange s.W v then .refused (.notAWord v)
  else .next (.done, s.setReg i v)

/-- A control register read at the access port (R20, R22). -/
def State.hostReadCr (s : State) (k : Nat) : Host.Outcome (HostReply × State) Fault Refusal :=
  if s.status = .running then .refused .whileRunning
  else
    match s.controlRegister k with
    | some r => .next (r, s)
    | none => .refused (.noSuchControlRegister k)

/-- Presenting a program at the program store port (20_memory.md R33, R37; `L` within 00_scope.md R5). -/
def State.hostPresent (s : State) (image : List Byte) : Host.Outcome (HostReply × State) Fault Refusal :=
  if s.status = .running then .refused .whileRunning
  else
    match Program.ofImage s.W image with
    | none => .refused .malformedImage
    | some P =>
      if 2 ^ (s.W - 1) ≤ P.len then .refused (.programTooLong P.len)
      else .next (.done, { s with program := P })

/-- Attaching or detaching a monitor (R159). -/
def State.hostAttach (s : State) (m : Monitor) : Host.Outcome (HostReply × State) Fault Refusal :=
  if s.status = .running then .refused .whileRunning
  else .next (.done, { s with monitor := m })

/-- The machine's answer to a host command. A refused command changes nothing. `construct` is accepted in every status
(R155). -/
def hostCommand (c : HostCommand) (s : State) : Host.Outcome (HostReply × State) Fault Refusal :=
  match c with
  | .construct => .next (.done, s.construct)
  | .run ipr ip => s.hostRun ipr ip
  | .readReg i => s.hostReadReg i
  | .writeReg i v => s.hostWriteReg i v
  | .readCr k => s.hostReadCr k
  | .present image => s.hostPresent image
  | .attach m => s.hostAttach m

/-- The operands of a command are what its port carries: `W`-bit values (10_state.md R22, 44_run_loop.md R105), the index of
a register (R22), the number of a control register (R20), the image of a program of legal length (20_memory.md R34,
30_encoding.md R59, 00_scope.md R5). -/
def HostCommand.Legal (s : State) : HostCommand → Prop
  | .construct => True
  | .run ipr ip => inRange s.W ipr ∧ inRange s.W ip
  | .readReg i => isRegister s.N i
  | .writeReg i v => isRegister s.N i ∧ inRange s.W v
  | .readCr k => k < 7
  | .present image =>
    ∃ P : List Instr, (∀ i ∈ P, i.fits s.W) ∧ P.length < 2 ^ (s.W - 1) ∧ image = encodeProgram s.W P
  | .attach _ => True

/-- The second column of R159's table. While RUNNING the host may only wait (a model assumes it never resets a run,
R155); while ABORTED it may read and construct. -/
def hostMay (c : HostCommand) (status : Status) : Bool :=
  match status, c with
  | .running, _ => false
  | .aborted, .construct => true
  | .aborted, .readReg _ => true
  | .aborted, .readCr _ => true
  | .aborted, _ => false
  | _, _ => true

end Sys2Proof.Machine
end

