-- ==== Sys2Proof/Safety.lean ====
section
/-! DEFINITION. What counts as a safe run, and the invariants claims take as premises. -/

namespace Sys2Proof.Machine

/-- Not aborted: ABORTED is never an end state that satisfies a claim (60_exceptions.md R147). -/
abbrev State.Safe (s : State) : Prop := s.status ≠ .aborted

/-- The run has ended in one of the two ways a claim about a program may take for its result (44_run_loop.md R120,
60_exceptions.md R147): HALTED or STOPPED, never ABORTED. -/
abbrev State.EndedNormally (s : State) : Prop := s.status = .halted ∨ s.status = .stopped

/-- The program in the store, the nominated index and `N` are well-formed (30_encoding.md R57). -/
def State.WellFormed (s : State) : Prop :=
  isRegister s.N s.ipr ∧ ∀ p : Nat, p < s.program.len → (s.program.record s.W p).wellFormed s.N

/-- The store is the image of `L` packed words (20_memory.md R34, 30_encoding.md R59): canonical, nothing beyond the
last word, padding bits zero. -/
structure Program.Ok (W : Nat) (P : Program) : Prop where
  canonical : Mem.wf P.image
  inside : ∀ x ∈ P.image, x.1 < P.len * wordBytes W
  padding : ∀ p < P.len, numberOf (Mem.readBytes P.image (p * wordBytes W) (wordBytes W)) < 2 ^ wordBits W

/-- The machine's invariant: legal parameters (00_scope.md R5); every stored value in `[INT_MIN, INT_MAX]` (section
6.2); `steps` in `SW` bits (10_state.md R17); `cause` and `fval` 0 except in ABORTED, where `cause` is a code (R18); the
store an image. -/
structure State.Ok (s : State) : Prop where
  legal : Config.legal s.N s.W s.SW s.program.len
  bank : ∀ v ∈ s.bank, inRange s.W v
  ip : inRange s.W s.ip
  ipr : inRange s.W s.ipr
  fval : inRange s.W s.fval
  steps : s.steps < 2 ^ s.SW
  cause : s.cause = .none ↔ s.status ≠ .aborted
  fvalZero : s.status ≠ .aborted → s.fval = 0
  program : s.program.Ok s.W

/-- What each status says of `ip` and `x[ipr]`: between steps of a run and after a halt, the pre-increment value is one
less than `ip` (44_run_loop.md R111, R121); a halted `ip` is outside the program (R106); a stopped machine is at the
instruction it did not execute (R114); an aborted one at the faulting position, with the code and index of R131. -/
def State.RunShape (s : State) : Prop :=
  match s.status with
  | .idle => True
  | .running => s.steps ≠ 0 → isRegister s.N s.ipr ∧ s.ip = wrap s.W (s.reg s.ipr + 1)
  | .halted =>
    ¬ s.program.Holds s.ip ∧ (s.steps ≠ 0 → isRegister s.N s.ipr ∧ s.ip = wrap s.W (s.reg s.ipr + 1))
  | .stopped => s.program.Holds s.ip ∧ isRegister s.N s.ipr ∧ s.reg s.ipr = s.ip
  | .aborted =>
    s.program.Holds s.ip ∧ ¬ isRegister s.N s.fval ∧
      (s.cause = .iprRange → s.fval = s.ipr) ∧
      (s.cause ≠ .iprRange → isRegister s.N s.ipr ∧ s.reg s.ipr = s.ip)

/-- `t` is `s` but, at most, for register `c`: every other register, `ip`, `ipr`, `steps`, `status`, `cause`, `fval`,
the parameters, the monitor and every byte of the store are the same (44_run_loop.md R109). -/
structure State.SameButReg (c : Int) (s t : State) : Prop where
  N : t.N = s.N
  reg : ∀ r, isRegister s.N r → r ≠ c → t.reg r = s.reg r
  ip : t.ip = s.ip
  ipr : t.ipr = s.ipr
  steps : t.steps = s.steps
  status : t.status = s.status
  cause : t.cause = s.cause
  fval : t.fval = s.fval
  W : t.W = s.W
  SW : t.SW = s.SW
  monitor : t.monitor = s.monitor
  len : t.program.len = s.program.len
  byte : ∀ addr, Mem.read t.program.image addr = Mem.read s.program.image addr

/-- `s` is about to execute `i`: RUNNING, `ip` inside the program, `ipr` a register, the predicate false on the triple
of this step, and `i` the record at `ip` (44_run_loop.md R107). -/
structure State.Ready (s : State) (i : Instr) : Prop where
  running : s.status = .running
  inside : s.program.Holds s.ip
  ipr : isRegister s.N s.ipr
  noStop : (s.setReg s.ipr s.ip).shouldStop = false
  record : s.program.record s.W s.ip.toNat = i

/-- `s` takes one step and goes on at position `p` (or halts there, if it is outside the program): the column "next" of
44_run_loop.md R118. -/
def State.GoesTo (s : State) (p : Int) : Prop := ∃ t, step s = .next t ∧ t.status = .running ∧ t.ip = p

end Sys2Proof.Machine

/-- The first register operand of an instruction that is out of range, in the order `a`, `b`, `c`, with the code of its
field (60_exceptions.md R131, R135), read off the kinds of 30_encoding.md R49. -/
def Sys2Proof.Instr.firstBad (N : Nat) (i : Sys2Proof.Instr) :
    Option (Sys2Proof.Machine.Cause × Int) :=
  if i.kindA = .register ∧ ¬ Sys2Proof.isRegister N i.a then some (.srcARange, i.a)
  else if i.kindB = .register ∧ ¬ Sys2Proof.isRegister N i.b then some (.srcBRange, i.b)
  else if ¬ Sys2Proof.isRegister N i.c then some (.dstCRange, i.c)
  else none
end

