-- ==== Sys2Proof/Certificates/Slice0/Obligations.lean ====
section
/-! DEFINITION. What is claimed of the machine, as propositions for the provers. Each cites the rules of spec/ it
formalises. `State.Ok` and `State.RunShape` (Sys2Proof/Safety.lean) are the invariants; that reset meets them is
`ResetMeetsTheInvariants`. -/

open Sys2Proof Sys2Proof.Machine

/-- 30_encoding.md R47, R55, 20_memory.md R34: every instruction whose operands are `W`-bit values, at every width, is
read back from its bytes, and what follows it is left over. -/
def Obligations.EncodedInstructionDecodes : Prop :=
  ∀ (W : Nat) (i : Instr) (rest : List Byte), 1 ≤ W → i.fits W → decode W (encode W i ++ rest) = .ok (i, rest)

/-- R34, R47, R55: the decoder accepts no bytes but the encoding of the instruction it answers, so two images of one
instruction do not exist. -/
def Obligations.AcceptedBytesAreAnEncoding : Prop :=
  ∀ (W : Nat) (bytes : List Byte) (i : Instr) (rest : List Byte), 1 ≤ W →
    decode W bytes = .ok (i, rest) → i.fits W ∧ bytes = encode W i ++ rest

/-- R55: decoding a word is total and gives the one record that packs into it; packing then decoding returns the
record. -/
def Obligations.EveryWordDecodesToOneRecord : Prop :=
  ∀ W : Nat, 1 ≤ W →
    (∀ w : BitVec (wordBits W), (∃! i : Instr, i.fits W ∧ encodeWord W i = w) ∧
      (decodeWord W w).fits W ∧ encodeWord W (decodeWord W w) = w) ∧
    ∀ i : Instr, i.fits W → decodeWord W (encodeWord W i) = i

/-- R47: the word is `a ‖ b ‖ c ‖ op`, `3W + 4` bits wide, and its fields are read from the same places as signed
values. -/
def Obligations.PackedWordLayout : Prop :=
  ∀ W : Nat, wordBits W = 3 * W + 4 ∧
    (∀ i : Instr, (encodeWord W i).toNat =
      (bits W i.a).toNat * 2 ^ (2 * W + 4) + (bits W i.b).toNat * 2 ^ (W + 4) + (bits W i.c).toNat * 2 ^ 4 +
        i.opNumber.toNat) ∧
    ∀ w : BitVec (wordBits W),
      (decodeWord W w).opNumber.toNat = w.toNat % 2 ^ 4 ∧
      (decodeWord W w).c = signed (BitVec.ofNat W (w.toNat / 2 ^ 4)) ∧
      (decodeWord W w).b = signed (BitVec.ofNat W (w.toNat / 2 ^ (W + 4))) ∧
      (decodeWord W w).a = signed (BitVec.ofNat W (w.toNat / 2 ^ (2 * W + 4)))

/-- The words of 95_test_vectors.md section 2.9 (V-ENC-1, 3, 5, 8, 9, 13, 15, 17, 18, 21, 22), one of every family and
some corners, decode to the instructions they stand for. -/
def Obligations.SpecWordsDecode : Prop :=
  decodeTableWord 196 0x0000000000000001000000000000000200000000000000030 = some (.addr 1 2 3) ∧
  decodeTableWord 196 0x0000000000000001000000000000000200000000000000032 = some (.mulr 1 2 3) ∧
  decodeTableWord 196 0x0000000000000001000000000000000200000000000000034 = some (.banr 1 2 3) ∧
  decodeTableWord 196 0x0000000000000001000000000000000200000000000000037 = some (.bori 1 2 3) ∧
  decodeTableWord 196 0x0000000000000001000000000000000200000000000000038 = some (.setr 1 2 3) ∧
  decodeTableWord 196 0x000000000000000100000000000000020000000000000003c = some (.gtir 1 2 3) ∧
  decodeTableWord 196 0x000000000000000100000000000000020000000000000003e = some (.eqri 1 2 3) ∧
  decodeTableWord 196 0x0000000000000001ffffffffffffffff00000000000000011 = some (.addi 1 (-1) 1) ∧
  decodeTableWord 196 0x8000000000000000000000000000000000000000000000009 =
    some (.seti (-9223372036854775808) 0 0) ∧
  decodeTableWord 196 0xfffffffffffffffffffffffffffffffffffffffffffffffff = some (.eqir (-1) (-1) (-1)) ∧
  decodeTableWord 196 0x123456789abcdef00fedcba98765432100000000000000aa7 =
    some (.bori 1311768467463790320 1147797409030816545 170)

/-- 20_memory.md R30, R32, R33, 30_encoding.md R59: a program presented between runs as its image is fetched record by
record; nothing else of the state changes. In IDLE, HALTED and STOPPED this is the rules'; that the program is accepted
in ABORTED too is the model's choice (notes/assumptions/8.md). -/
def Obligations.PresentedProgramIsFetched : Prop :=
  ∀ (s : State) (P : List Instr), s.status ≠ .running → 1 ≤ s.W → (∀ i ∈ P, i.fits s.W) →
    P.length < 2 ^ (s.W - 1) →
    ∃ Q : Program,
      hostCommand (.present (encodeProgram s.W P)) s = .next (.done, { s with program := Q }) ∧
      Q.len = P.length ∧ Q.Ok s.W ∧
      ∀ (p : Nat) (h : p < P.length), State.fetch { s with program := Q } (p : Int) = .ok P[p]

/-- R32, R34, R37: at every position of a program whose store is an image, `Fetch` answers the one record of `W`-bit
operands whose encoding stands there, byte for byte. Anywhere else, where R32 leaves `Fetch`
undefined, it answers `noSuchPosition`: the form of that answer is the model's choice (notes/assumptions/12.md). -/
def Obligations.FetchedRecordIsTheStoredWord : Prop :=
  ∀ (s : State) (p : Int), 1 ≤ s.W → s.program.Ok s.W →
    (s.program.Holds p → ∃ i : Instr, s.fetch p = .ok i ∧ i.fits s.W ∧
      Mem.readBytes s.program.image (p.toNat * wordBytes s.W) (wordBytes s.W) = encode s.W i) ∧
    (¬ s.program.Holds p → s.fetch p = .error (.noSuchPosition p))

/-- 10_state.md R23: what `construct` leaves, from any state; power-on is the same event; 70_reset_and_hazards.md R155: in
any status, the program untouched. That it keeps the monitor is the model's choice (notes/assumptions/5.md, 8.md). -/
def Obligations.ConstructLeavesTheResetValues : Prop :=
  hostCommand .construct State.reset = .next (.done, State.reset) ∧
  ∀ s : State, ∃ t : State, hostCommand .construct s = .next (.done, t) ∧
    t.N = s.N ∧ (∀ r, isRegister s.N r → t.reg r = 0) ∧ t.ip = 0 ∧ t.ipr = 0 ∧ t.steps = 0 ∧
    t.status = .idle ∧ t.cause = .none ∧ t.fval = 0 ∧
    t.program = s.program ∧ t.monitor = s.monitor ∧ t.W = s.W ∧ t.SW = s.SW

/-- R23, R155: power-on is the constructed state, and it meets both invariants. That `W` and `SW` are 64 is R5's
default; `N` = 6, the empty program and the absent monitor are the model's own choices (notes/assumptions/1.md, 4.md,
5.md). -/
def Obligations.ResetMeetsTheInvariants : Prop :=
  State.reset.construct = State.reset ∧ State.reset.Ok ∧ State.reset.RunShape ∧
  State.reset.W = 64 ∧ State.reset.SW = 64 ∧ State.reset.bank = [0, 0, 0, 0, 0, 0] ∧
  State.reset.status = .idle ∧ State.reset.program.len = 0 ∧ State.reset.monitor = .absent

/-- 44_run_loop.md R106: the halt, with nothing else changed (step (a) is not performed, `ipr` is not checked). -/
def Obligations.LeavingTheProgramHalts : Prop :=
  ∀ s : State, s.status = .running → ¬ (0 ≤ s.ip ∧ s.ip < (s.program.len : Int)) →
    step s = .next { s with status := .halted }

/-- R108, 60_exceptions.md R131, R133, R134: an `ipr` outside `[0, N)` aborts at step (a), code 1, nothing written. -/
def Obligations.BadInstructionPointerRegisterAborts : Prop :=
  ∀ s : State, s.status = .running → s.program.Holds s.ip → ¬ isRegister s.N s.ipr →
    step s = .next { s with cause := .iprRange, fval := s.ipr, status := .aborted }

/-- R113: the predicate is asked after step (a), on the bank with `x[ipr] = ip`; when true the run ends STOPPED with
`ip`, `steps` and every other register as they are. -/
def Obligations.PredicateStopsBeforeTheInstruction : Prop :=
  ∀ s : State, s.status = .running → s.program.Holds s.ip → isRegister s.N s.ipr →
    s.monitor.answer (s.bank.set s.ipr.toNat s.ip) s.ip s.steps = true →
    ∃ t : State, step s = .next { t with status := .stopped } ∧
      State.SameButReg s.ipr s t ∧ t.reg s.ipr = s.ip

/-- R107, R109 to R112: when the bytes at `ip` decode to `i`, the step is `exec i` on the bank with `x[ipr] = ip`,
then `ip <- wrap_W(x[ipr] + 1)` and one more in `steps`, unless `exec` aborted; and for a well-formed `i` it does
complete. -/
def Obligations.StepRunsTheDecodedInstruction : Prop :=
  ∀ (s : State) (i : Instr), s.status = .running → s.program.Holds s.ip → isRegister s.N s.ipr →
    (s.setReg s.ipr s.ip).shouldStop = false →
    decode s.W (Mem.readBytes s.program.image (s.ip.toNat * wordBytes s.W) (wordBytes s.W)) = .ok (i, []) →
    step s =
      (match exec i (s.setReg s.ipr s.ip) with
      | .next t =>
        if t.status = .aborted then .next t
        else .next { t with ip := wrap t.W (t.reg t.ipr + 1), steps := (t.steps + 1) % 2 ^ t.SW }
      | .fault f => .fault f
      | .refused q => .refused q) ∧
    (i.wellFormed s.N → ∃ t : State,
      exec i (s.setReg s.ipr s.ip) = .next t ∧
      step s = .next { t with ip := wrap s.W (t.reg s.ipr + 1), steps := (s.steps + 1) % 2 ^ s.SW })

/-- 60_exceptions.md R131, R133 to R135: the first bad index is reported; step (a) has been done and nothing else, `ip`
stays at the instruction and `steps` excludes it. -/
def Obligations.IllFormedInstructionAbortsPrecisely : Prop :=
  ∀ (s : State) (i : Instr) (code : Cause) (v : Int), s.Ready i → i.firstBad s.N = some (code, v) →
    ∃ t : State, step s = .next { t with cause := code, fval := v, status := .aborted } ∧
      State.SameButReg s.ipr s t ∧ t.reg s.ipr = s.ip

/-- 93_implementation_defined.md U8 and the end of its section 1: nothing is stuck; in every state whatever, legal or
not, the step answers a next state, and while RUNNING it either goes on or ends in one of R120's three ways. -/
def Obligations.EveryStepAnswersANextState : Prop :=
  ∀ s : State, ∃ t : State, step s = .next t ∧
    (s.status = .running → t.status = .running ∨ t.status = .halted ∨ t.status = .stopped ∨ t.status = .aborted)

/-- 60_exceptions.md R146: no power states; outside a run a step changes nothing. -/
def Obligations.NotRunningHoldsItsState : Prop :=
  ∀ s : State, s.status ≠ .running → step s = .next s

/-- 10_state.md R17, 44_run_loop.md R112: 0 when a run begins, one more modulo `2^SW` for a step that completed, the
same for a step that halted, stopped or aborted; no instruction writes it. -/
def Obligations.StepCounterCountsCompletedSteps : Prop :=
  (∀ (s t : State) (r p : Int) (q : HostReply), hostCommand (.run r p) s = .next (q, t) → t.steps = 0) ∧
  (∀ s t : State, s.status = .running → step s = .next t →
    t.steps = if t.status = .running then (s.steps + 1) % 2 ^ s.SW else s.steps) ∧
  ∀ (i : Instr) (s t : State), exec i s = .next t → t.steps = s.steps

/-- 40_arithmetic.md R66: opcode number 0; the indices `a`, `b`, `c` are checked in that order; with all of these
registers `addr` answers a next state in which `x[c]` is the sum, wrapped: the one value in range congruent to it
modulo `2^W` (R65), and nothing else has changed. -/
def Obligations.AddrAddsRegisters : Prop :=
  ∀ (a b c : Int) (s : State),
    (encodeWord s.W (.addr a b c)).toNat % 2 ^ 4 = 0 ∧
    (¬ isRegister s.N a →
      exec (.addr a b c) s = .next { s with cause := .srcARange, fval := a, status := .aborted }) ∧
    (isRegister s.N a → ¬ isRegister s.N b →
      exec (.addr a b c) s = .next { s with cause := .srcBRange, fval := b, status := .aborted }) ∧
    (isRegister s.N a → isRegister s.N b → ¬ isRegister s.N c →
      exec (.addr a b c) s = .next { s with cause := .dstCRange, fval := c, status := .aborted }) ∧
    (isRegister s.N a → isRegister s.N b → isRegister s.N c →
      ∃ t : State, exec (.addr a b c) s = .next t ∧ State.SameButReg c s t ∧
        inRange s.W (t.reg c) ∧ t.reg c ≡ s.reg a + s.reg b [ZMOD 2 ^ s.W])

/-- 40_arithmetic.md R67: opcode number 1; `a` and `c` are checked in that order, the immediate `b` never; with all of
these registers `addi` answers a next state in which `x[c]` is the sum, wrapped: the one value in range congruent to
it modulo `2^W` (R65), and nothing else has changed. -/
def Obligations.AddiAddsImmediate : Prop :=
  ∀ (a b c : Int) (s : State),
    (encodeWord s.W (.addi a b c)).toNat % 2 ^ 4 = 1 ∧
    (¬ isRegister s.N a →
      exec (.addi a b c) s = .next { s with cause := .srcARange, fval := a, status := .aborted }) ∧
    (isRegister s.N a → ¬ isRegister s.N c →
      exec (.addi a b c) s = .next { s with cause := .dstCRange, fval := c, status := .aborted }) ∧
    (isRegister s.N a → isRegister s.N c →
      ∃ t : State, exec (.addi a b c) s = .next t ∧ State.SameButReg c s t ∧
        inRange s.W (t.reg c) ∧ t.reg c ≡ s.reg a + b [ZMOD 2 ^ s.W])

/-- 40_arithmetic.md R68: opcode number 2; the indices `a`, `b`, `c` are checked in that order; with all of these
registers `mulr` answers a next state in which `x[c]` is the product, wrapped: the one value in range congruent to it
modulo `2^W` (R65), and nothing else has changed. -/
def Obligations.MulrMultipliesRegisters : Prop :=
  ∀ (a b c : Int) (s : State),
    (encodeWord s.W (.mulr a b c)).toNat % 2 ^ 4 = 2 ∧
    (¬ isRegister s.N a →
      exec (.mulr a b c) s = .next { s with cause := .srcARange, fval := a, status := .aborted }) ∧
    (isRegister s.N a → ¬ isRegister s.N b →
      exec (.mulr a b c) s = .next { s with cause := .srcBRange, fval := b, status := .aborted }) ∧
    (isRegister s.N a → isRegister s.N b → ¬ isRegister s.N c →
      exec (.mulr a b c) s = .next { s with cause := .dstCRange, fval := c, status := .aborted }) ∧
    (isRegister s.N a → isRegister s.N b → isRegister s.N c →
      ∃ t : State, exec (.mulr a b c) s = .next t ∧ State.SameButReg c s t ∧
        inRange s.W (t.reg c) ∧ t.reg c ≡ s.reg a * s.reg b [ZMOD 2 ^ s.W])

/-- 40_arithmetic.md R69: opcode number 3; `a` and `c` are checked in that order, the immediate `b` never; with all of
these registers `muli` answers a next state in which `x[c]` is the product, wrapped: the one value in range congruent
to it modulo `2^W` (R65), and nothing else has changed. -/
def Obligations.MuliMultipliesByImmediate : Prop :=
  ∀ (a b c : Int) (s : State),
    (encodeWord s.W (.muli a b c)).toNat % 2 ^ 4 = 3 ∧
    (¬ isRegister s.N a →
      exec (.muli a b c) s = .next { s with cause := .srcARange, fval := a, status := .aborted }) ∧
    (isRegister s.N a → ¬ isRegister s.N c →
      exec (.muli a b c) s = .next { s with cause := .dstCRange, fval := c, status := .aborted }) ∧
    (isRegister s.N a → isRegister s.N c →
      ∃ t : State, exec (.muli a b c) s = .next t ∧ State.SameButReg c s t ∧
        inRange s.W (t.reg c) ∧ t.reg c ≡ s.reg a * b [ZMOD 2 ^ s.W])

/-- 41_bitwise.md R76: opcode number 4; the indices `a`, `b`, `c` are checked in that order; with all of these
registers `banr` answers a next state in which `x[c]` is the AND of the two's-complement bits (R75) and nothing else
has changed. -/
def Obligations.BanrAndsRegisters : Prop :=
  ∀ (a b c : Int) (s : State),
    (encodeWord s.W (.banr a b c)).toNat % 2 ^ 4 = 4 ∧
    (¬ isRegister s.N a →
      exec (.banr a b c) s = .next { s with cause := .srcARange, fval := a, status := .aborted }) ∧
    (isRegister s.N a → ¬ isRegister s.N b →
      exec (.banr a b c) s = .next { s with cause := .srcBRange, fval := b, status := .aborted }) ∧
    (isRegister s.N a → isRegister s.N b → ¬ isRegister s.N c →
      exec (.banr a b c) s = .next { s with cause := .dstCRange, fval := c, status := .aborted }) ∧
    (isRegister s.N a → isRegister s.N b → isRegister s.N c →
      ∃ t : State, exec (.banr a b c) s = .next t ∧ State.SameButReg c s t ∧
        inRange s.W (t.reg c) ∧
        ∀ k < s.W, (bits s.W (t.reg c)).getLsbD k = ((bits s.W (s.reg a)).getLsbD k && (bits s.W (s.reg b)).getLsbD k))

/-- 41_bitwise.md R77: opcode number 5; `a` and `c` are checked in that order, the immediate `b` never; with all of
these registers `bani` answers a next state in which `x[c]` is the AND of the two's-complement bits (R75) and nothing
else has changed. -/
def Obligations.BaniAndsImmediate : Prop :=
  ∀ (a b c : Int) (s : State),
    (encodeWord s.W (.bani a b c)).toNat % 2 ^ 4 = 5 ∧
    (¬ isRegister s.N a →
      exec (.bani a b c) s = .next { s with cause := .srcARange, fval := a, status := .aborted }) ∧
    (isRegister s.N a → ¬ isRegister s.N c →
      exec (.bani a b c) s = .next { s with cause := .dstCRange, fval := c, status := .aborted }) ∧
    (isRegister s.N a → isRegister s.N c →
      ∃ t : State, exec (.bani a b c) s = .next t ∧ State.SameButReg c s t ∧
        inRange s.W (t.reg c) ∧
        ∀ k < s.W, (bits s.W (t.reg c)).getLsbD k = ((bits s.W (s.reg a)).getLsbD k && (bits s.W b).getLsbD k))

/-- 41_bitwise.md R78: opcode number 6; the indices `a`, `b`, `c` are checked in that order; with all of these
registers `borr` answers a next state in which `x[c]` is the OR of the two's-complement bits (R75) and nothing else
has changed. -/
def Obligations.BorrOrsRegisters : Prop :=
  ∀ (a b c : Int) (s : State),
    (encodeWord s.W (.borr a b c)).toNat % 2 ^ 4 = 6 ∧
    (¬ isRegister s.N a →
      exec (.borr a b c) s = .next { s with cause := .srcARange, fval := a, status := .aborted }) ∧
    (isRegister s.N a → ¬ isRegister s.N b →
      exec (.borr a b c) s = .next { s with cause := .srcBRange, fval := b, status := .aborted }) ∧
    (isRegister s.N a → isRegister s.N b → ¬ isRegister s.N c →
      exec (.borr a b c) s = .next { s with cause := .dstCRange, fval := c, status := .aborted }) ∧
    (isRegister s.N a → isRegister s.N b → isRegister s.N c →
      ∃ t : State, exec (.borr a b c) s = .next t ∧ State.SameButReg c s t ∧
        inRange s.W (t.reg c) ∧
        ∀ k < s.W, (bits s.W (t.reg c)).getLsbD k = ((bits s.W (s.reg a)).getLsbD k || (bits s.W (s.reg b)).getLsbD k))

/-- 41_bitwise.md R79: opcode number 7; `a` and `c` are checked in that order, the immediate `b` never; with all of
these registers `bori` answers a next state in which `x[c]` is the OR of the two's-complement bits (R75) and nothing
else has changed. -/
def Obligations.BoriOrsImmediate : Prop :=
  ∀ (a b c : Int) (s : State),
    (encodeWord s.W (.bori a b c)).toNat % 2 ^ 4 = 7 ∧
    (¬ isRegister s.N a →
      exec (.bori a b c) s = .next { s with cause := .srcARange, fval := a, status := .aborted }) ∧
    (isRegister s.N a → ¬ isRegister s.N c →
      exec (.bori a b c) s = .next { s with cause := .dstCRange, fval := c, status := .aborted }) ∧
    (isRegister s.N a → isRegister s.N c →
      ∃ t : State, exec (.bori a b c) s = .next t ∧ State.SameButReg c s t ∧
        inRange s.W (t.reg c) ∧
        ∀ k < s.W, (bits s.W (t.reg c)).getLsbD k = ((bits s.W (s.reg a)).getLsbD k || (bits s.W b).getLsbD k))

/-- 42_set.md R86: opcode number 8; `a` and `c` are checked in that order, the ignored `b` never; with all of these
registers `setr` answers a next state in which `x[c]` is the value copied and nothing else has changed. -/
def Obligations.SetrCopiesRegister : Prop :=
  ∀ (a b c : Int) (s : State),
    (encodeWord s.W (.setr a b c)).toNat % 2 ^ 4 = 8 ∧
    (¬ isRegister s.N a →
      exec (.setr a b c) s = .next { s with cause := .srcARange, fval := a, status := .aborted }) ∧
    (isRegister s.N a → ¬ isRegister s.N c →
      exec (.setr a b c) s = .next { s with cause := .dstCRange, fval := c, status := .aborted }) ∧
    (isRegister s.N a → isRegister s.N c →
      ∃ t : State, exec (.setr a b c) s = .next t ∧ State.SameButReg c s t ∧
        t.reg c = s.reg a)

/-- 42_set.md R87: opcode number 9; only `c` is checked; with it a register `seti` answers a next state in which
`x[c]` is the value copied and nothing else has changed. -/
def Obligations.SetiLoadsImmediate : Prop :=
  ∀ (a b c : Int) (s : State),
    (encodeWord s.W (.seti a b c)).toNat % 2 ^ 4 = 9 ∧
    (¬ isRegister s.N c →
      exec (.seti a b c) s = .next { s with cause := .dstCRange, fval := c, status := .aborted }) ∧
    (isRegister s.N c →
      ∃ t : State, exec (.seti a b c) s = .next t ∧ State.SameButReg c s t ∧
        t.reg c = a)

/-- 43_compare.md R91: opcode number 10; the indices `a`, `b`, `c` are checked in that order; with all of these
registers `gtrr` answers a next state in which `x[c]` is 1 if left > right in the signed order, else 0 (R90) and
nothing else has changed. -/
def Obligations.GtrrComparesRegisters : Prop :=
  ∀ (a b c : Int) (s : State),
    (encodeWord s.W (.gtrr a b c)).toNat % 2 ^ 4 = 10 ∧
    (¬ isRegister s.N a →
      exec (.gtrr a b c) s = .next { s with cause := .srcARange, fval := a, status := .aborted }) ∧
    (isRegister s.N a → ¬ isRegister s.N b →
      exec (.gtrr a b c) s = .next { s with cause := .srcBRange, fval := b, status := .aborted }) ∧
    (isRegister s.N a → isRegister s.N b → ¬ isRegister s.N c →
      exec (.gtrr a b c) s = .next { s with cause := .dstCRange, fval := c, status := .aborted }) ∧
    (isRegister s.N a → isRegister s.N b → isRegister s.N c →
      ∃ t : State, exec (.gtrr a b c) s = .next t ∧ State.SameButReg c s t ∧
        t.reg c = if s.reg a > s.reg b then 1 else 0)

/-- 43_compare.md R92: opcode number 11; `a` and `c` are checked in that order, the immediate `b` never; with all of
these registers `gtri` answers a next state in which `x[c]` is 1 if left > right in the signed order, else 0 (R90) and
nothing else has changed. -/
def Obligations.GtriComparesWithImmediate : Prop :=
  ∀ (a b c : Int) (s : State),
    (encodeWord s.W (.gtri a b c)).toNat % 2 ^ 4 = 11 ∧
    (¬ isRegister s.N a →
      exec (.gtri a b c) s = .next { s with cause := .srcARange, fval := a, status := .aborted }) ∧
    (isRegister s.N a → ¬ isRegister s.N c →
      exec (.gtri a b c) s = .next { s with cause := .dstCRange, fval := c, status := .aborted }) ∧
    (isRegister s.N a → isRegister s.N c →
      ∃ t : State, exec (.gtri a b c) s = .next t ∧ State.SameButReg c s t ∧
        t.reg c = if s.reg a > b then 1 else 0)

/-- 43_compare.md R93: opcode number 12; `b` and `c` are checked in that order, the immediate `a` never; with all of
these registers `gtir` answers a next state in which `x[c]` is 1 if left > right in the signed order, else 0 (R90) and
nothing else has changed. -/
def Obligations.GtirComparesImmediate : Prop :=
  ∀ (a b c : Int) (s : State),
    (encodeWord s.W (.gtir a b c)).toNat % 2 ^ 4 = 12 ∧
    (¬ isRegister s.N b →
      exec (.gtir a b c) s = .next { s with cause := .srcBRange, fval := b, status := .aborted }) ∧
    (isRegister s.N b → ¬ isRegister s.N c →
      exec (.gtir a b c) s = .next { s with cause := .dstCRange, fval := c, status := .aborted }) ∧
    (isRegister s.N b → isRegister s.N c →
      ∃ t : State, exec (.gtir a b c) s = .next t ∧ State.SameButReg c s t ∧
        t.reg c = if a > s.reg b then 1 else 0)

/-- 43_compare.md R94: opcode number 13; the indices `a`, `b`, `c` are checked in that order; with all of these
registers `eqrr` answers a next state in which `x[c]` is 1 if the sides are equal, else 0 (R90) and nothing else has
changed. -/
def Obligations.EqrrComparesRegisters : Prop :=
  ∀ (a b c : Int) (s : State),
    (encodeWord s.W (.eqrr a b c)).toNat % 2 ^ 4 = 13 ∧
    (¬ isRegister s.N a →
      exec (.eqrr a b c) s = .next { s with cause := .srcARange, fval := a, status := .aborted }) ∧
    (isRegister s.N a → ¬ isRegister s.N b →
      exec (.eqrr a b c) s = .next { s with cause := .srcBRange, fval := b, status := .aborted }) ∧
    (isRegister s.N a → isRegister s.N b → ¬ isRegister s.N c →
      exec (.eqrr a b c) s = .next { s with cause := .dstCRange, fval := c, status := .aborted }) ∧
    (isRegister s.N a → isRegister s.N b → isRegister s.N c →
      ∃ t : State, exec (.eqrr a b c) s = .next t ∧ State.SameButReg c s t ∧
        t.reg c = if s.reg a = s.reg b then 1 else 0)

/-- 43_compare.md R95: opcode number 14; `a` and `c` are checked in that order, the immediate `b` never; with all of
these registers `eqri` answers a next state in which `x[c]` is 1 if the sides are equal, else 0 (R90) and nothing else
has changed. -/
def Obligations.EqriComparesWithImmediate : Prop :=
  ∀ (a b c : Int) (s : State),
    (encodeWord s.W (.eqri a b c)).toNat % 2 ^ 4 = 14 ∧
    (¬ isRegister s.N a →
      exec (.eqri a b c) s = .next { s with cause := .srcARange, fval := a, status := .aborted }) ∧
    (isRegister s.N a → ¬ isRegister s.N c →
      exec (.eqri a b c) s = .next { s with cause := .dstCRange, fval := c, status := .aborted }) ∧
    (isRegister s.N a → isRegister s.N c →
      ∃ t : State, exec (.eqri a b c) s = .next t ∧ State.SameButReg c s t ∧
        t.reg c = if s.reg a = b then 1 else 0)

/-- 43_compare.md R96: opcode number 15; `b` and `c` are checked in that order, the immediate `a` never; with all of
these registers `eqir` answers a next state in which `x[c]` is 1 if the sides are equal, else 0 (R90) and nothing else
has changed. -/
def Obligations.EqirComparesImmediate : Prop :=
  ∀ (a b c : Int) (s : State),
    (encodeWord s.W (.eqir a b c)).toNat % 2 ^ 4 = 15 ∧
    (¬ isRegister s.N b →
      exec (.eqir a b c) s = .next { s with cause := .srcBRange, fval := b, status := .aborted }) ∧
    (isRegister s.N b → ¬ isRegister s.N c →
      exec (.eqir a b c) s = .next { s with cause := .dstCRange, fval := c, status := .aborted }) ∧
    (isRegister s.N b → isRegister s.N c →
      ∃ t : State, exec (.eqir a b c) s = .next t ∧ State.SameButReg c s t ∧
        t.reg c = if a = s.reg b then 1 else 0)

/-- 60_exceptions.md R131, R134, R135, 30_encoding.md R49, R53: every instruction aborts on the first register operand
out of range, in the order `a`, `b`, `c` of R49's table, writing no register; with none it answers a next state that
differs at most in register `c`. -/
def Obligations.OperandsAreCheckedInOrder : Prop :=
  ∀ (i : Instr) (s : State),
    match i.firstBad s.N with
    | some (code, v) => exec i s = .next { s with cause := code, fval := v, status := .aborted }
    | none => ∃ t : State, exec i s = .next t ∧ State.SameButReg i.c s t

/-- 30_encoding.md R57, 60_exceptions.md R132: well-formedness of program, `ipr` and `N`, and being unaborted, is kept
by every step. -/
def Obligations.WellFormedRunNeverAborts : Prop :=
  ∀ s t : State, s.WellFormed → s.Safe → step s = .next t → t.WellFormed ∧ t.Safe

/-- 60_exceptions.md R147, R136: ABORTED is cleared by no later step, so no run that reached it ends otherwise; R132,
30_encoding.md R57: a run of a well-formed program does not reach it, however long. -/
def Obligations.AbortIsFinalAndOnlyIllFormedRunsAbort : Prop :=
  ∀ (k : Nat) (s : State),
    (s.status = .aborted → Host.Core.run core k s = .next s) ∧
    (s.WellFormed → s.Safe → ∃ t : State, Host.Core.run core k s = .next t ∧ t.WellFormed ∧ t.Safe)

/-- 00_scope.md section 6.1 and R5, 10_state.md R17, R18: every step keeps the stored values in `[INT_MIN, INT_MAX]`,
`steps` in `SW` bits, `cause` and `fval` zero outside ABORTED, the parameters legal and the store an image. -/
def Obligations.StepKeepsTheInvariant : Prop :=
  ∀ s t : State, s.Ok → step s = .next t → t.Ok

/-- 44_run_loop.md R106, R111, R114, R121 (the last an inference the spec marks as derived), 60_exceptions.md R134:
every step keeps what the status says of `ip` and `x[ipr]`. -/
def Obligations.StepKeepsTheRunShape : Prop :=
  ∀ s t : State, s.RunShape → step s = .next t → t.RunShape

/-- R22, R23, R33, R105: what the host can do between steps keeps the invariant too, an image it presents included. -/
def Obligations.HostCommandsKeepTheInvariant : Prop :=
  ∀ (c : HostCommand) (s t : State) (r : HostReply), s.Ok → hostCommand c s = .next (r, t) → t.Ok

/-- 10_state.md R16 (`ipr`), 20_memory.md R33, R42 (the program), 00_scope.md R5 (`N`, `W` and `SW`, which are fields of
State by the model's choice, notes/assumptions/2.md), 44_run_loop.md R113 (the predicate is fixed for the run): no step
changes any of them. -/
def Obligations.StepLeavesProgramAndLatchesAlone : Prop :=
  ∀ s t : State, step s = .next t →
    t.W = s.W ∧ t.SW = s.SW ∧ t.N = s.N ∧ t.ipr = s.ipr ∧ t.program = s.program ∧ t.monitor = s.monitor

/-- 44_run_loop.md R109, R125: `Exec` is a function of the record and the bank (at a width) to a bank or an abort: it
can neither read nor write `ip`, `ipr`, `steps` or the program. -/
def Obligations.ExecSeesOnlyTheBank : Prop :=
  ∀ (i : Instr) (s t : State), s.bank = t.bank → s.W = t.W →
    (∃ b : List Int, exec i s = .next { s with bank := b } ∧ exec i t = .next { t with bank := b }) ∨
    ∃ (code : Cause) (v : Int), exec i s = .next { s with cause := code, fval := v, status := .aborted } ∧
      exec i t = .next { t with cause := code, fval := v, status := .aborted }

/-- 60_exceptions.md R142: the counter is read by nothing but the monitor, so with none attached two runs that differ
only in `steps` agree in everything else for ever; R147: and a well-formed one does not abort. -/
def Obligations.StepCountDoesNotSteerTheRun : Prop :=
  ∀ (k : Nat) (s : State) (n : Nat), s.monitor = .absent →
    ∃ (t : State) (m : Nat), Host.Core.run core k s = .next t ∧
      Host.Core.run core k { s with steps := n } = .next { t with steps := m } ∧
      (s.WellFormed → s.Safe → t.Safe)

/-- R113, 60_exceptions.md R145: as long as its answer is false, an attached monitor is invisible: the step is the one
without it. -/
def Obligations.SilentMonitorIsInvisible : Prop :=
  ∀ (s : State) (m : Monitor), m.answer (s.bank.set s.ipr.toNat s.ip) s.ip s.steps = false →
    ∃ t : State, step { s with monitor := .absent } = .next { t with monitor := .absent } ∧
      step { s with monitor := m } = .next { t with monitor := m }

/-- 44_run_loop.md R114, an inference the spec marks as derived from R105, R107 and R108: a stopped run, its monitor
detached and `run(IPR, p)` issued, goes on exactly as the run that was never asked, and the two counts add up. 60_exceptions.md
R147: of a well-formed program neither run aborts. -/
def Obligations.StoppedRunResumes : Prop :=
  ∀ (s : State) (k : Nat), s.Ok → s.status = .running → s.program.Holds s.ip → isRegister s.N s.ipr →
    (s.setReg s.ipr s.ip).shouldStop = true →
    ∃ (t u v w : State) (n : Nat), step s = .next t ∧
      hostCommand (.attach .absent) t = .next (.done, u) ∧ hostCommand (.run s.ipr t.ip) u = .next (.done, v) ∧
      Host.Core.run core (k + 1) { s with monitor := .absent } = .next w ∧
      Host.Core.run core (k + 1) v = .next { w with steps := n } ∧
      w.steps = (s.steps + n) % 2 ^ s.SW ∧ (s.WellFormed → w.Safe)

/-- 44_run_loop.md R110, R111, R116, R117: the next `ip` is one past the value left in `x[ipr]`; an instruction that
does not write it falls through; the run goes on exactly when that value is in `[-1, L - 2]`. -/
def Obligations.NextIpIsOnePastTheValueLeft : Prop :=
  ∀ (s : State) (i : Instr), s.Ok → s.Ready i → i.wellFormed s.N →
    ∃ t : State, step s = .next t ∧ t.status = .running ∧ t.ip = wrap s.W (t.reg s.ipr + 1) ∧
      (i.c ≠ s.ipr → t.reg s.ipr = s.ip ∧ t.ip = s.ip + 1) ∧
      (-1 ≤ t.reg s.ipr ∧ t.reg s.ipr ≤ (s.program.len : Int) - 2 →
        t.ip = t.reg s.ipr + 1 ∧ t.program.Holds t.ip) ∧
      (¬ (-1 ≤ t.reg s.ipr ∧ t.reg s.ipr ≤ (s.program.len : Int) - 2) →
        step t = .next { t with status := .halted })

/-- 44_run_loop.md R118, an inference the spec marks as derived from R117 and the instruction rules: where each idiom
at position `p = ip` goes on, `I` being `ipr`. Targets are taken modulo `2^W` (R117); R118 writes them without. -/
def Obligations.IdiomTargets : Prop :=
  ∀ s : State, s.Ok →
    (∀ b : Int, s.Ready (.addi s.ipr 0 s.ipr) ∨ s.Ready (.setr s.ipr b s.ipr) ∨ s.Ready (.muli s.ipr 1 s.ipr) ∨
      s.Ready (.bori s.ipr 0 s.ipr) → s.GoesTo (s.ip + 1)) ∧
    (∀ T b : Int, s.Ready (.seti (T - 1) b s.ipr) → s.GoesTo (wrap s.W T)) ∧
    (∀ k : Int, s.Ready (.addi s.ipr k s.ipr) → s.GoesTo (wrap s.W (s.ip + k + 1))) ∧
    (s.Ready (.addi s.ipr (-1) s.ipr) → s.GoesTo s.ip) ∧
    (∀ f : Int, isRegister s.N f → f ≠ s.ipr → s.Ready (.addr f s.ipr s.ipr) ∨ s.Ready (.addr s.ipr f s.ipr) →
      s.GoesTo (wrap s.W (s.ip + 1 + s.reg f))) ∧
    (∀ r b : Int, isRegister s.N r → r ≠ s.ipr → s.Ready (.setr r b s.ipr) →
      s.GoesTo (wrap s.W (s.reg r + 1))) ∧
    (∀ i : Instr, (∃ a b : Int, i = .gtrr a b s.ipr ∨ i = .gtri a b s.ipr ∨ i = .gtir a b s.ipr ∨
      i = .eqrr a b s.ipr ∨ i = .eqri a b s.ipr ∨ i = .eqir a b s.ipr) → i.wellFormed s.N → s.Ready i →
      s.GoesTo 1 ∨ s.GoesTo (wrap s.W 2)) ∧
    (∀ k r : Int, isRegister s.N r → r ≠ s.ipr → s.Ready (.addi s.ipr k r) →
      ∃ t : State, step s = .next t ∧ t.ip = s.ip + 1 ∧ t.reg r = wrap s.W (s.ip + k)) ∧
    (∀ b r : Int, isRegister s.N r → r ≠ s.ipr → s.Ready (.setr s.ipr b r) →
      ∃ t : State, step s = .next t ∧ t.ip = s.ip + 1 ∧ t.reg r = s.ip) ∧
    (s.Ready (.mulr s.ipr s.ipr s.ipr) → s.GoesTo (wrap s.W (s.ip * s.ip + 1)))

/-- 10_state.md R22, 90_conflicts.md C11: registers are read in every status but RUNNING and written in IDLE, HALTED and
STOPPED; an index outside `[0, N)` is refused at any time; an access changes nothing but the register written. -/
def Obligations.HostRegisterAccess : Prop :=
  ∀ (s : State) (i v : Int),
    (s.status ≠ .running → isRegister s.N i → hostCommand (.readReg i) s = .next (.word (s.reg i), s)) ∧
    (s.status ≠ .running → s.status ≠ .aborted → isRegister s.N i → inRange s.W v →
      ∃ t : State, hostCommand (.writeReg i v) s = .next (.done, t) ∧ State.SameButReg i s t ∧ t.reg i = v) ∧
    (s.status = .running → hostCommand (.readReg i) s = .refused .whileRunning ∧
      hostCommand (.writeReg i v) s = .refused .whileRunning) ∧
    (s.status = .aborted → hostCommand (.writeReg i v) s = .refused .whileAborted) ∧
    (¬ isRegister s.N i → ∃ q q' : Refusal,
      hostCommand (.readReg i) s = .refused q ∧ hostCommand (.writeReg i v) s = .refused q')

/-- 44_run_loop.md R105, R124: `run` is accepted in IDLE, HALTED and STOPPED with any `W`-bit arguments, latches them,
clears `steps`, `cause` and `fval`, and does not touch the bank; it is refused in RUNNING and ABORTED. -/
def Obligations.RunCommandStartsARun : Prop :=
  ∀ (s : State) (r p : Int),
    (s.status ≠ .running → s.status ≠ .aborted → inRange s.W r → inRange s.W p →
      hostCommand (.run r p) s =
        .next (.done,
          { s with ipr := r, ip := p, steps := 0, cause := .none, fval := 0, status := .running })) ∧
    (s.status = .running → hostCommand (.run r p) s = .refused .whileRunning) ∧
    (s.status = .aborted → hostCommand (.run r p) s = .refused .whileAborted)

/-- 60_exceptions.md R136: an aborted machine takes no step, and no host command but `construct` changes its registers
or its control state. -/
def Obligations.OnlyConstructLeavesAborted : Prop :=
  ∀ s : State, s.status = .aborted → step s = .next s ∧
    ∀ (c : HostCommand) (r : HostReply) (t : State), c ≠ .construct → hostCommand c s = .next (r, t) →
      t.status = .aborted ∧ t.bank = s.bank ∧ t.ip = s.ip ∧ t.ipr = s.ipr ∧ t.steps = s.steps ∧
      t.cause = s.cause ∧ t.fval = s.fval

/-- 10_state.md R22, 20_memory.md R33, 70_reset_and_hazards.md R159: while RUNNING every host command but the hardware
reset is refused. -/
def Obligations.RunningRefusesTheHost : Prop :=
  ∀ (s : State) (c : HostCommand), s.status = .running → c ≠ .construct →
    hostCommand c s = .refused .whileRunning

/-- 70_reset_and_hazards.md R159: the host may do everything in IDLE, HALTED and STOPPED, nothing in RUNNING, and in ABORTED
read and construct; and the machine performs what the host may do, whenever the command's operands are legal. No such
command is refused for the status, whatever its operands. -/
def Obligations.AllowedCommandsAreAccepted : Prop :=
  (∀ c : HostCommand, hostMay c .idle = true ∧ hostMay c .halted = true ∧ hostMay c .stopped = true ∧
    hostMay c .running = false ∧
    (hostMay c .aborted = true ↔ (∃ i, c = .readReg i) ∨ (∃ k, c = .readCr k) ∨ c = .construct)) ∧
  ∀ (c : HostCommand) (s : State), hostMay c s.status = true →
    (c.Legal s → ∃ (r : HostReply) (t : State), hostCommand c s = .next (r, t)) ∧
    hostCommand c s ≠ .refused .whileRunning ∧ hostCommand c s ≠ .refused .whileAborted

/-- R159: attaching any monitor, or detaching it (`attach .absent`), is performed in IDLE, HALTED and STOPPED and changes
nothing but what is attached; the monitor function is not changed while RUNNING. -/
def Obligations.AttachChangesOnlyTheMonitor : Prop :=
  ∀ (s : State) (m : Monitor),
    (s.status = .idle ∨ s.status = .halted ∨ s.status = .stopped →
      hostCommand (.attach m) s = .next (.done, { s with monitor := m })) ∧
    (s.status = .running → hostCommand (.attach m) s = .refused .whileRunning)

/-- 10_state.md R20 with the numbers of R19 and R131: what CR0 to CR6 read as when not RUNNING, with no side effect.
R20 lists these seven and no other; that a read of another number is refused, and by which name, is the model's choice
(notes/assumptions/10.md). -/
def Obligations.ControlRegistersRead : Prop :=
  ∀ s : State, s.status ≠ .running →
    hostCommand (.readCr 0) s = .next (.number (match s.status with
      | .idle => 0 | .running => 1 | .halted => 2 | .stopped => 3 | .aborted => 4), s) ∧
    hostCommand (.readCr 1) s = .next (.number (match s.cause with
      | .none => 0 | .iprRange => 1 | .srcARange => 2 | .srcBRange => 3 | .dstCRange => 4), s) ∧
    hostCommand (.readCr 2) s = .next (.word s.ip, s) ∧
    hostCommand (.readCr 3) s = .next (.word s.ipr, s) ∧
    hostCommand (.readCr 4) s = .next (.number s.steps, s) ∧
    hostCommand (.readCr 5) s = .next (.word s.fval, s) ∧
    hostCommand (.readCr 6) s = .next (.config s.N s.W s.SW s.program.len, s) ∧
    ∀ k, 7 ≤ k → hostCommand (.readCr k) s = .refused (.noSuchControlRegister k)

/-- 40_arithmetic.md R70, an inference the spec marks as derived from R65 to R69: frame, identity, commutativity, the
ring laws on wrapped values, and `addi` undone by the negated immediate (any `m` congruent to `-k`, so that every
`W`-bit `k` has one). -/
def Obligations.ArithmeticLaws : Prop :=
  (∀ (s : State) (i : Instr) (a b c : Int),
    i = .addr a b c ∨ i = .addi a b c ∨ i = .mulr a b c ∨ i = .muli a b c → i.wellFormed s.N →
    ∃ t : State, exec i s = .next t ∧ State.SameButReg c s t) ∧
  (∀ (s : State) (c : Int), isRegister s.N c → inRange s.W (s.reg c) → 1 ≤ s.W →
    exec (.addi c 0 c) s = .next s ∧ exec (.muli c 1 c) s = .next s) ∧
  (∀ (s : State) (a b c : Int), isRegister s.N a → isRegister s.N b → isRegister s.N c →
    ∃ t : State, exec (.addr a b c) s = .next t ∧ exec (.addr b a c) s = .next t) ∧
  (∀ (s : State) (a b c : Int), isRegister s.N a → isRegister s.N b → isRegister s.N c →
    ∃ t : State, exec (.mulr a b c) s = .next t ∧ exec (.mulr b a c) s = .next t) ∧
  (∀ (W : Nat) (u v w : Int),
    aluAdd W (aluAdd W u v) w = aluAdd W u (aluAdd W v w) ∧
    aluMul W (aluMul W u v) w = aluMul W u (aluMul W v w) ∧
    aluMul W u (aluAdd W v w) = aluAdd W (aluMul W u v) (aluMul W u w)) ∧
  (∀ (s : State) (a c k m : Int), isRegister s.N a → isRegister s.N c → inRange s.W (s.reg a) → 1 ≤ s.W →
    m ≡ -k [ZMOD 2 ^ s.W] →
    ∃ t u : State, exec (.addi a k c) s = .next t ∧ exec (.addi c m c) t = .next u ∧ u.reg c = s.reg a)

/-- 41_bitwise.md R80, an inference the spec marks as derived from R75 to R79: frame, identity, idempotence,
commutativity, absorption, and the bounds for non-negative operands. -/
def Obligations.BitwiseLaws : Prop :=
  (∀ (s : State) (i : Instr) (a b c : Int),
    i = .banr a b c ∨ i = .bani a b c ∨ i = .borr a b c ∨ i = .bori a b c → i.wellFormed s.N →
    ∃ t : State, exec i s = .next t ∧ State.SameButReg c s t) ∧
  (∀ (s : State) (c : Int), isRegister s.N c → inRange s.W (s.reg c) → 1 ≤ s.W →
    exec (.bani c (-1) c) s = .next s ∧ exec (.bori c 0 c) s = .next s) ∧
  (∀ (s : State) (a c : Int), isRegister s.N a → isRegister s.N c → inRange s.W (s.reg a) → 1 ≤ s.W →
    ∃ t : State, exec (.banr a a c) s = .next t ∧ exec (.borr a a c) s = .next t ∧ t.reg c = s.reg a ∧
      State.SameButReg c s t) ∧
  (∀ (s : State) (a b c : Int), isRegister s.N a → isRegister s.N b → isRegister s.N c →
    (∃ t : State, exec (.banr a b c) s = .next t ∧ exec (.banr b a c) s = .next t) ∧
    ∃ t : State, exec (.borr a b c) s = .next t ∧ exec (.borr b a c) s = .next t) ∧
  (∀ (W : Nat) (u v : Int), 1 ≤ W → inRange W u → inRange W v →
    aluOr W (aluAnd W u v) u = u ∧ aluAnd W (aluOr W u v) u = u ∧
    (0 ≤ u → 0 ≤ v → 0 ≤ aluAnd W u v ∧ aluAnd W u v ≤ min u v ∧
      max u v ≤ aluOr W u v ∧ aluOr W u v ≤ u + v))

/-- 42_set.md R88, an inference the spec marks as derived from R85 to R87, with 30_encoding.md R52: each writes
exactly `x[c]`; `seti` depends neither on the bank nor on `b`, `setr` not on `b`; copying back changes nothing; what
`seti` wrote is what a register operand `c` of any instruction reads. -/
def Obligations.SetLaws : Prop :=
  (∀ (s : State) (a b b' c : Int),
    exec (.setr a b c) s = exec (.setr a b' c) s ∧ exec (.seti a b c) s = exec (.seti a b' c) s) ∧
  (∀ (s : State) (a b c : Int), isRegister s.N c →
    ∃ t : State, exec (.seti a b c) s = .next t ∧ State.SameButReg c s t ∧ t.reg c = a) ∧
  (∀ (s : State) (a b b' c : Int), isRegister s.N a → isRegister s.N c →
    ∃ t u : State, exec (.setr a b c) s = .next t ∧ State.SameButReg c s t ∧
      exec (.setr c b' a) t = .next u ∧ u.reg a = s.reg a) ∧
  (∀ (s : State) (v b c : Int), isRegister s.N c →
    ∃ t : State, exec (.seti v b c) s = .next t ∧ ∀ k : Int → Result, t.regA c k = k v ∧ t.regB c k = k v)

/-- 43_compare.md R97, an inference the spec marks as derived from R90 to R96: frame with a value 0 or 1, symmetry of
equality, trichotomy of the strict order (the corrected form, 90_conflicts.md C3), the immediate forms against each
other, irreflexivity and reflexivity. -/
def Obligations.CompareLaws : Prop :=
  (∀ (s : State) (i : Instr) (a b c : Int),
    i = .gtrr a b c ∨ i = .gtri a b c ∨ i = .gtir a b c ∨ i = .eqrr a b c ∨ i = .eqri a b c ∨ i = .eqir a b c →
    i.wellFormed s.N →
    ∃ t : State, exec i s = .next t ∧ State.SameButReg c s t ∧ (t.reg c = 0 ∨ t.reg c = 1)) ∧
  (∀ (s : State) (a b c : Int), isRegister s.N a → isRegister s.N b → isRegister s.N c →
    ∃ t : State, exec (.eqrr a b c) s = .next t ∧ exec (.eqrr b a c) s = .next t) ∧
  (∀ (s : State) (a b c c' : Int), isRegister s.N a → isRegister s.N b → isRegister s.N c → isRegister s.N c' →
    ∃ t u : State, exec (.gtrr a b c) s = .next t ∧ exec (.gtrr b a c') s = .next u ∧
      ((t.reg c = 1 ∧ u.reg c' ≠ 1 ∧ s.reg a ≠ s.reg b) ∨ (t.reg c ≠ 1 ∧ u.reg c' = 1 ∧ s.reg a ≠ s.reg b) ∨
        (t.reg c ≠ 1 ∧ u.reg c' ≠ 1 ∧ s.reg a = s.reg b)) ∧
      (t.reg c = 1 ↔ u.reg c' = 0 ∧ s.reg a ≠ s.reg b)) ∧
  (∀ (s : State) (a v c : Int), isRegister s.N a → isRegister s.N c →
    ∃ t u : State, exec (.gtri a v c) s = .next t ∧ exec (.gtir v a c) s = .next u ∧
      (t.reg c = 1 ↔ u.reg c = 0 ∧ s.reg a ≠ v)) ∧
  (∀ (s : State) (a c : Int), isRegister s.N a → isRegister s.N c →
    ∃ t u : State, exec (.gtrr a a c) s = .next t ∧ t.reg c = 0 ∧ exec (.eqrr a a c) s = .next u ∧ u.reg c = 1)

/-- 60_exceptions.md R145 with 44_run_loop.md R122: a monitor that stops when `steps` reaches `n` ends any run, of any
program, after at most the steps that are left to `n`; R147: a run of a well-formed program then ended HALTED or STOPPED,
not ABORTED. -/
def Obligations.StepBoundEndsTheRun : Prop :=
  ∀ (s : State) (n : Nat), s.status = .running → s.monitor = .stepsEq n → s.steps ≤ n → n < 2 ^ s.SW →
    ∃ t : State, Host.Core.run core (n - s.steps + 1) s = .next t ∧ t.status ≠ .running ∧
      (s.WellFormed → t.EndedNormally)
end

