-- ==== Sys2Proof/Laws/Bits.lean ====
section
/-! SUPPORT. Two's complement at width `W` and little-endian bytes: what `wrap`, `signed`, `bits`, `bytesOf` and
`numberOf` do. -/

namespace Sys2Proof

theorem wrap_eq_bmod (W : Nat) (v : Int) : wrap W v = v.bmod (2 ^ W) := by
  simp [wrap, signed, bits, BitVec.toInt_ofInt]

/-- What any `W`-bit vector spells is in range. -/
theorem signed_inRange {W : Nat} (b : BitVec W) : inRange W (signed b) := by
  have h₁ := BitVec.le_toInt b
  have h₂ := BitVec.toInt_lt (x := b)
  simp only [inRange, intMin, intMax, signed]
  omega

theorem wrap_inRange (W : Nat) (v : Int) : inRange W (wrap W v) := signed_inRange _

/-- A value in range is not changed by wrapping. -/
theorem wrap_of_inRange {W : Nat} (h : 1 ≤ W) {v : Int} (hv : inRange W v) : wrap W v = v := by
  obtain ⟨k, rfl⟩ : ∃ k, W = k + 1 := ⟨W - 1, by omega⟩
  simp only [inRange, intMin, intMax, Nat.add_sub_cancel] at hv
  rw [wrap_eq_bmod]
  apply Int.bmod_eq_of_le
  · push_cast [pow_succ]; omega
  · push_cast [pow_succ]; omega

/-- Wrapping keeps the value modulo `2^W`. -/
theorem wrap_modEq (W : Nat) (v : Int) : wrap W v ≡ v [ZMOD 2 ^ W] := by
  rw [wrap_eq_bmod, Int.ModEq]
  have := Int.bmod_emod (x := v) (m := 2 ^ W)
  push_cast at this
  exact this

/-- Wrapping depends on the value modulo `2^W` only. -/
theorem wrap_eq_wrap {W : Nat} {u v : Int} (h : u ≡ v [ZMOD 2 ^ W]) : wrap W u = wrap W v := by
  rw [wrap_eq_bmod, wrap_eq_bmod, Int.bmod_eq_bmod_iff_bmod_sub_eq_zero]
  have hd : ((2 ^ W : Nat) : Int) ∣ u - v := by
    push_cast
    exact Int.ModEq.dvd h.symm
  exact Int.bmod_eq_zero_of_dvd hd

/-- Reading the bits of a value in range back gives the value. -/
theorem signed_bits {W : Nat} (h : 1 ≤ W) {v : Int} (hv : inRange W v) : signed (bits W v) = v := wrap_of_inRange h hv

@[simp] theorem bits_signed {W : Nat} (b : BitVec W) : bits W (signed b) = b := by
  simp [bits, signed]

@[simp] theorem length_bytesOf (k n : Nat) : (bytesOf k n).length = k := by
  induction k generalizing n with
  | zero => rfl
  | succ k ih => simp [bytesOf, ih]

/-- The bytes of a number spell it modulo `256^k`. -/
theorem numberOf_bytesOf (k n : Nat) : numberOf (bytesOf k n) = n % 256 ^ k := by
  induction k generalizing n with
  | zero => simp [bytesOf, numberOf, Nat.mod_one]
  | succ k ih =>
    have h : (BitVec.ofNat 8 n).toNat = n % 256 := BitVec.toNat_ofNat n 8
    rw [bytesOf, numberOf, ih, h, pow_succ', Nat.mod_mul]

theorem numberOf_lt (bs : List Byte) : numberOf bs < 256 ^ bs.length := by
  induction bs with
  | nil => simp [numberOf]
  | cons b bs ih =>
    have := b.isLt
    simp only [numberOf, List.length_cons, pow_succ]
    omega

/-- Bytes are the bytes of the number they spell. -/
theorem bytesOf_numberOf (bs : List Byte) : bytesOf bs.length (numberOf bs) = bs := by
  induction bs with
  | nil => rfl
  | cons b bs ih =>
    have hb := b.isLt
    simp only [List.length_cons, bytesOf, numberOf]
    have h₁ : (b.toNat + 256 * numberOf bs) / 256 = numberOf bs := by omega
    have h₂ : BitVec.ofNat 8 (b.toNat + 256 * numberOf bs) = b := by
      apply BitVec.eq_of_toNat_eq
      simp only [BitVec.toNat_ofNat]
      omega
    rw [h₁, h₂, ih]

/-- A packed word fits the bytes an image gives it. -/
theorem two_pow_wordBits_le (W : Nat) : 2 ^ wordBits W ≤ 256 ^ wordBytes W := by
  rw [show (256 : Nat) = 2 ^ 8 by rfl, ← pow_mul]
  exact Nat.pow_le_pow_right (by omega) (by simp only [wordBytes]; omega)

theorem wordBytes_pos (W : Nat) : 0 < wordBytes W := by
  simp only [wordBytes, wordBits]
  omega

end Sys2Proof
end

