-- ==== Sys2Proof/Laws/Memory.lean ====
section
/-! SUPPORT. The program store: every operation keeps the canonical form, and what a byte reads as after it. -/

namespace Sys2Proof.Machine

theorem Mem.wf_nil : Mem.wf [] := by simp [Mem.wf]

theorem Mem.wf_tail {x : Host.Cell} {m : List Host.Cell} (h : Mem.wf (x :: m)) : Mem.wf m :=
  ⟨h.1.tail, fun y hy => h.2 y (List.mem_cons_of_mem x hy)⟩

/-- `Mem.cons` before entries at higher addresses keeps the form. -/
theorem Mem.wf_cons {a : Nat} {b : Byte} {m : List Host.Cell} (h : Mem.wf m) (ha : ∀ x ∈ m, a < x.1) :
    Mem.wf (Mem.cons a b m) := by
  unfold Mem.cons
  split
  · exact h
  · rename_i hb
    refine ⟨List.pairwise_cons.2 ⟨ha, h.1⟩, fun x hx => ?_⟩
    rcases List.mem_cons.1 hx with rfl | hx
    · exact hb
    · exact h.2 x hx

theorem Mem.mem_cons {a : Nat} {b : Byte} {m : List Host.Cell} {x : Host.Cell} (h : x ∈ Mem.cons a b m) :
    x = (a, b) ∨ x ∈ m := by
  unfold Mem.cons at h
  split at h
  · exact .inr h
  · exact List.mem_cons.1 h

/-- An entry after a write is the written one or an entry before. -/
theorem Mem.mem_write {m : List Host.Cell} {a : Nat} {b : Byte} {x : Host.Cell} (h : x ∈ Mem.write m a b) :
    x = (a, b) ∨ x ∈ m := by
  induction m with
  | nil => exact Mem.mem_cons h
  | cons y m ih =>
    obtain ⟨k, v⟩ := y
    simp only [Mem.write] at h
    split at h
    · exact Mem.mem_cons h
    · split at h
      · exact (Mem.mem_cons h).imp id (List.mem_cons_of_mem _)
      · rcases List.mem_cons.1 h with rfl | h
        · exact .inr (List.mem_cons_self ..)
        · exact (ih h).imp id (List.mem_cons_of_mem _)

/-- A write keeps the canonical form. -/
theorem Mem.wf_write {m : List Host.Cell} (h : Mem.wf m) (a : Nat) (b : Byte) : Mem.wf (Mem.write m a b) := by
  induction m with
  | nil => exact Mem.wf_cons h (by simp)
  | cons x m ih =>
    obtain ⟨k, v⟩ := x
    have hk : ∀ y ∈ m, k < y.1 := (List.pairwise_cons.1 h.1).1
    simp only [Mem.write]
    split
    · rename_i hak
      refine Mem.wf_cons h fun y hy => ?_
      rcases List.mem_cons.1 hy with rfl | hy
      · exact hak
      · exact hak.trans (hk y hy)
    · split
      · rename_i hak
        exact Mem.wf_cons (Mem.wf_tail h) fun y hy => hak ▸ hk y hy
      · rename_i h₁ h₂
        refine ⟨List.pairwise_cons.2 ⟨fun y hy => ?_, (ih (Mem.wf_tail h)).1⟩, fun y hy => ?_⟩
        · rcases Mem.mem_write hy with rfl | hy
          · show k < a
            omega
          · exact hk y hy
        · rcases List.mem_cons.1 hy with rfl | hy
          · exact h.2 _ (List.mem_cons_self ..)
          · exact (ih (Mem.wf_tail h)).2 y hy

/-- Writing bytes keeps the canonical form. -/
theorem Mem.wf_writeBytes {m : List Host.Cell} (h : Mem.wf m) (a : Nat) (bs : List Byte) :
    Mem.wf (Mem.writeBytes m a bs) := by
  induction bs generalizing m a with
  | nil => exact h
  | cons b bs ih => exact ih (Mem.wf_write h a b) (a + 1)

theorem Mem.mem_ofBytes {a : Nat} {bs : List Byte} {x : Host.Cell} (h : x ∈ Mem.ofBytes a bs) :
    a ≤ x.1 ∧ x.1 < a + bs.length := by
  induction bs generalizing a with
  | nil => simp [Mem.ofBytes] at h
  | cons b bs ih =>
    rcases Mem.mem_cons h with rfl | h
    · simp
    · have := ih h
      simp only [List.length_cons]
      omega

/-- The store of a byte image is in canonical form. -/
theorem Mem.wf_ofBytes (a : Nat) (bs : List Byte) : Mem.wf (Mem.ofBytes a bs) := by
  induction bs generalizing a with
  | nil => exact Mem.wf_nil
  | cons b bs ih => exact Mem.wf_cons (ih (a + 1)) fun x hx => (Mem.mem_ofBytes hx).1

/-- Below its first entry a store reads as unlisted. -/
theorem Mem.read_below {m : List Host.Cell} {a : Nat} (h : ∀ x ∈ m, a < x.1) : Mem.read m a = unlistedByte := by
  induction m with
  | nil => rfl
  | cons x m ih =>
    obtain ⟨k, v⟩ := x
    have hk : a < k := h (k, v) (List.mem_cons_self ..)
    simp only [Mem.read]
    rw [if_neg (by omega)]
    exact ih fun y hy => h y (List.mem_cons_of_mem _ hy)

theorem Mem.read_cons {a : Nat} {b : Byte} {m : List Host.Cell} (h : ∀ x ∈ m, a < x.1) (c : Nat) :
    Mem.read (Mem.cons a b m) c = if c = a then b else Mem.read m c := by
  unfold Mem.cons
  split
  · rename_i hb
    split
    · rename_i hc
      rw [hc, hb, Mem.read_below h]
    · rfl
  · rfl

/-- A byte after a write: the written one at its address, every other as before. -/
theorem Mem.read_write {m : List Host.Cell} (h : Mem.wf m) (a : Nat) (b : Byte) (c : Nat) :
    Mem.read (Mem.write m a b) c = if c = a then b else Mem.read m c := by
  induction m with
  | nil => exact Mem.read_cons (by simp) c
  | cons x m ih =>
    obtain ⟨k, v⟩ := x
    have hk : ∀ y ∈ m, k < y.1 := (List.pairwise_cons.1 h.1).1
    simp only [Mem.write]
    split
    · rename_i hak
      refine Mem.read_cons (fun y hy => ?_) c
      rcases List.mem_cons.1 hy with rfl | hy
      · exact hak
      · exact hak.trans (hk y hy)
    · split
      · rename_i hak
        subst hak
        rw [Mem.read_cons hk]
        split
        · rfl
        · rename_i hc
          simp [Mem.read, hc]
      · rename_i h₁ h₂
        simp only [Mem.read]
        rw [ih (Mem.wf_tail h)]
        split
        · rename_i hck
          rw [if_neg (by omega)]
        · rfl

/-- A byte of the store of an image. -/
theorem Mem.read_ofBytes (a : Nat) (bs : List Byte) (i : Nat) :
    Mem.read (Mem.ofBytes a bs) (a + i) = bs.getD i unlistedByte := by
  induction bs generalizing a i with
  | nil => rfl
  | cons b bs ih =>
    have h : ∀ x ∈ Mem.ofBytes (a + 1) bs, a < x.1 := fun x hx => (Mem.mem_ofBytes hx).1
    simp only [Mem.ofBytes]
    rw [Mem.read_cons h]
    cases i with
    | zero => simp
    | succ i =>
      rw [if_neg (by omega), show a + (i + 1) = a + 1 + i by omega, ih]
      simp

@[simp] theorem Mem.length_readBytes (m : List Host.Cell) (a n : Nat) : (Mem.readBytes m a n).length = n := by
  induction n generalizing a with
  | zero => rfl
  | succ n ih => simp [Mem.readBytes, ih]

/-- Bytes read back from the store of an image are the image's. -/
theorem Mem.readBytes_ofBytes (bs : List Byte) (i n : Nat) (h : i + n ≤ bs.length) :
    Mem.readBytes (Mem.ofBytes 0 bs) i n = (bs.drop i).take n := by
  induction n generalizing i with
  | zero => simp [Mem.readBytes]
  | succ n ih =>
    have hi : i < bs.length := by omega
    have hr := Mem.read_ofBytes 0 bs i
    rw [Nat.zero_add] at hr
    simp only [Mem.readBytes]
    rw [ih (i + 1) (by omega), hr, List.drop_eq_getElem_cons hi, List.take_succ_cons]
    simp [List.getD_eq_getElem?_getD, hi]

end Sys2Proof.Machine
end

