-- ==== Sys2Proof/Laws/State.lean ====
section
/-! SUPPORT. One lemma per field per update of State, all by `rfl`, and the registers of an updated bank. -/

namespace Sys2Proof.Machine

@[simp] theorem State.setReg_W (s : State) (i v : Int) : (s.setReg i v).W = s.W := rfl
@[simp] theorem State.setReg_SW (s : State) (i v : Int) : (s.setReg i v).SW = s.SW := rfl
@[simp] theorem State.setReg_bank (s : State) (i v : Int) : (s.setReg i v).bank = s.bank.set i.toNat v := rfl
@[simp] theorem State.setReg_ip (s : State) (i v : Int) : (s.setReg i v).ip = s.ip := rfl
@[simp] theorem State.setReg_ipr (s : State) (i v : Int) : (s.setReg i v).ipr = s.ipr := rfl
@[simp] theorem State.setReg_steps (s : State) (i v : Int) : (s.setReg i v).steps = s.steps := rfl
@[simp] theorem State.setReg_status (s : State) (i v : Int) : (s.setReg i v).status = s.status := rfl
@[simp] theorem State.setReg_cause (s : State) (i v : Int) : (s.setReg i v).cause = s.cause := rfl
@[simp] theorem State.setReg_fval (s : State) (i v : Int) : (s.setReg i v).fval = s.fval := rfl
@[simp] theorem State.setReg_program (s : State) (i v : Int) : (s.setReg i v).program = s.program := rfl
@[simp] theorem State.setReg_monitor (s : State) (i v : Int) : (s.setReg i v).monitor = s.monitor := rfl

@[simp] theorem State.abort_W (s : State) (code : Cause) (val : Int) : (s.abort code val).W = s.W := rfl
@[simp] theorem State.abort_SW (s : State) (code : Cause) (val : Int) : (s.abort code val).SW = s.SW := rfl
@[simp] theorem State.abort_bank (s : State) (code : Cause) (val : Int) : (s.abort code val).bank = s.bank := rfl
@[simp] theorem State.abort_ip (s : State) (code : Cause) (val : Int) : (s.abort code val).ip = s.ip := rfl
@[simp] theorem State.abort_ipr (s : State) (code : Cause) (val : Int) : (s.abort code val).ipr = s.ipr := rfl
@[simp] theorem State.abort_steps (s : State) (code : Cause) (val : Int) : (s.abort code val).steps = s.steps := rfl
@[simp] theorem State.abort_status (s : State) (code : Cause) (val : Int) : (s.abort code val).status = .aborted := rfl
@[simp] theorem State.abort_cause (s : State) (code : Cause) (val : Int) : (s.abort code val).cause = code := rfl
@[simp] theorem State.abort_fval (s : State) (code : Cause) (val : Int) : (s.abort code val).fval = val := rfl
@[simp] theorem State.abort_program (s : State) (code : Cause) (val : Int) : (s.abort code val).program = s.program := rfl
@[simp] theorem State.abort_monitor (s : State) (code : Cause) (val : Int) : (s.abort code val).monitor = s.monitor := rfl

@[simp] theorem State.endRun_W (s : State) (e : Status) : (s.endRun e).W = s.W := rfl
@[simp] theorem State.endRun_SW (s : State) (e : Status) : (s.endRun e).SW = s.SW := rfl
@[simp] theorem State.endRun_bank (s : State) (e : Status) : (s.endRun e).bank = s.bank := rfl
@[simp] theorem State.endRun_ip (s : State) (e : Status) : (s.endRun e).ip = s.ip := rfl
@[simp] theorem State.endRun_ipr (s : State) (e : Status) : (s.endRun e).ipr = s.ipr := rfl
@[simp] theorem State.endRun_steps (s : State) (e : Status) : (s.endRun e).steps = s.steps := rfl
@[simp] theorem State.endRun_status (s : State) (e : Status) : (s.endRun e).status = e := rfl
@[simp] theorem State.endRun_cause (s : State) (e : Status) : (s.endRun e).cause = s.cause := rfl
@[simp] theorem State.endRun_fval (s : State) (e : Status) : (s.endRun e).fval = s.fval := rfl
@[simp] theorem State.endRun_program (s : State) (e : Status) : (s.endRun e).program = s.program := rfl
@[simp] theorem State.endRun_monitor (s : State) (e : Status) : (s.endRun e).monitor = s.monitor := rfl

@[simp] theorem State.startRun_W (s : State) (r p : Int) : (s.startRun r p).W = s.W := rfl
@[simp] theorem State.startRun_SW (s : State) (r p : Int) : (s.startRun r p).SW = s.SW := rfl
@[simp] theorem State.startRun_bank (s : State) (r p : Int) : (s.startRun r p).bank = s.bank := rfl
@[simp] theorem State.startRun_ip (s : State) (r p : Int) : (s.startRun r p).ip = p := rfl
@[simp] theorem State.startRun_ipr (s : State) (r p : Int) : (s.startRun r p).ipr = r := rfl
@[simp] theorem State.startRun_steps (s : State) (r p : Int) : (s.startRun r p).steps = 0 := rfl
@[simp] theorem State.startRun_status (s : State) (r p : Int) : (s.startRun r p).status = .running := rfl
@[simp] theorem State.startRun_cause (s : State) (r p : Int) : (s.startRun r p).cause = .none := rfl
@[simp] theorem State.startRun_fval (s : State) (r p : Int) : (s.startRun r p).fval = 0 := rfl
@[simp] theorem State.startRun_program (s : State) (r p : Int) : (s.startRun r p).program = s.program := rfl
@[simp] theorem State.startRun_monitor (s : State) (r p : Int) : (s.startRun r p).monitor = s.monitor := rfl

@[simp] theorem State.construct_W (s : State) : s.construct.W = s.W := rfl
@[simp] theorem State.construct_SW (s : State) : s.construct.SW = s.SW := rfl
@[simp] theorem State.construct_bank (s : State) : s.construct.bank = List.replicate s.N 0 := rfl
@[simp] theorem State.construct_ip (s : State) : s.construct.ip = 0 := rfl
@[simp] theorem State.construct_ipr (s : State) : s.construct.ipr = 0 := rfl
@[simp] theorem State.construct_steps (s : State) : s.construct.steps = 0 := rfl
@[simp] theorem State.construct_status (s : State) : s.construct.status = .idle := rfl
@[simp] theorem State.construct_cause (s : State) : s.construct.cause = .none := rfl
@[simp] theorem State.construct_fval (s : State) : s.construct.fval = 0 := rfl
@[simp] theorem State.construct_program (s : State) : s.construct.program = s.program := rfl
@[simp] theorem State.construct_monitor (s : State) : s.construct.monitor = s.monitor := rfl

@[simp] theorem State.stepC_W (s : State) : s.stepC.W = s.W := rfl
@[simp] theorem State.stepC_SW (s : State) : s.stepC.SW = s.SW := rfl
@[simp] theorem State.stepC_bank (s : State) : s.stepC.bank = s.bank := rfl
@[simp] theorem State.stepC_ip (s : State) : s.stepC.ip = s.reg s.ipr := rfl
@[simp] theorem State.stepC_ipr (s : State) : s.stepC.ipr = s.ipr := rfl
@[simp] theorem State.stepC_steps (s : State) : s.stepC.steps = s.steps := rfl
@[simp] theorem State.stepC_status (s : State) : s.stepC.status = s.status := rfl
@[simp] theorem State.stepC_cause (s : State) : s.stepC.cause = s.cause := rfl
@[simp] theorem State.stepC_fval (s : State) : s.stepC.fval = s.fval := rfl
@[simp] theorem State.stepC_program (s : State) : s.stepC.program = s.program := rfl
@[simp] theorem State.stepC_monitor (s : State) : s.stepC.monitor = s.monitor := rfl

@[simp] theorem State.stepD_W (s : State) : s.stepD.W = s.W := rfl
@[simp] theorem State.stepD_SW (s : State) : s.stepD.SW = s.SW := rfl
@[simp] theorem State.stepD_bank (s : State) : s.stepD.bank = s.bank := rfl
@[simp] theorem State.stepD_ip (s : State) : s.stepD.ip = wrap s.W (s.ip + 1) := rfl
@[simp] theorem State.stepD_ipr (s : State) : s.stepD.ipr = s.ipr := rfl
@[simp] theorem State.stepD_steps (s : State) : s.stepD.steps = (s.steps + 1) % 2 ^ s.SW := rfl
@[simp] theorem State.stepD_status (s : State) : s.stepD.status = s.status := rfl
@[simp] theorem State.stepD_cause (s : State) : s.stepD.cause = s.cause := rfl
@[simp] theorem State.stepD_fval (s : State) : s.stepD.fval = s.fval := rfl
@[simp] theorem State.stepD_program (s : State) : s.stepD.program = s.program := rfl
@[simp] theorem State.stepD_monitor (s : State) : s.stepD.monitor = s.monitor := rfl

@[simp] theorem State.setReg_N (s : State) (i v : Int) : (s.setReg i v).N = s.N := by
  simp [State.N]

@[simp] theorem State.abort_N (s : State) (code : Cause) (val : Int) : (s.abort code val).N = s.N := rfl

@[simp] theorem State.endRun_N (s : State) (e : Status) : (s.endRun e).N = s.N := rfl

@[simp] theorem State.startRun_N (s : State) (r p : Int) : (s.startRun r p).N = s.N := rfl

@[simp] theorem State.construct_N (s : State) : s.construct.N = s.N := by
  simp [State.N]

@[simp] theorem State.stepC_N (s : State) : s.stepC.N = s.N := rfl

@[simp] theorem State.stepD_N (s : State) : s.stepD.N = s.N := rfl

@[simp] theorem State.abort_reg (s : State) (code : Cause) (val i : Int) : (s.abort code val).reg i = s.reg i := rfl

@[simp] theorem State.endRun_reg (s : State) (e : Status) (i : Int) : (s.endRun e).reg i = s.reg i := rfl

@[simp] theorem State.startRun_reg (s : State) (r p i : Int) : (s.startRun r p).reg i = s.reg i := rfl

@[simp] theorem State.stepC_reg (s : State) (i : Int) : s.stepC.reg i = s.reg i := rfl

@[simp] theorem State.stepD_reg (s : State) (i : Int) : s.stepD.reg i = s.reg i := rfl

@[simp] theorem State.construct_reg (s : State) (i : Int) : s.construct.reg i = 0 := by
  simp only [State.reg, State.construct_bank, List.getD_eq_getElem?_getD, List.getElem?_replicate]
  split <;> rfl

/-- The written register holds the written value. -/
theorem State.reg_setReg_same (s : State) {i : Int} (h : isRegister s.N i) (v : Int) : (s.setReg i v).reg i = v := by
  obtain ⟨h₀, h₁⟩ := h
  have : i.toNat < s.bank.length := by simp only [State.N] at h₁; omega
  simp [State.reg, List.getD_eq_getElem?_getD, this]

/-- Every other register keeps its value. -/
theorem State.reg_setReg_other (s : State) {i j : Int} (hi : isRegister s.N i) (hj : isRegister s.N j) (h : j ≠ i)
    (v : Int) : (s.setReg i v).reg j = s.reg j := by
  obtain ⟨hi₀, _⟩ := hi
  obtain ⟨hj₀, _⟩ := hj
  have : i.toNat ≠ j.toNat := by omega
  simp [State.reg, List.getD_eq_getElem?_getD, this]

/-- Writing a register with the value it holds changes nothing. -/
theorem State.setReg_self (s : State) {i : Int} (h : isRegister s.N i) : s.setReg i (s.reg i) = s := by
  obtain ⟨h₀, h₁⟩ := h
  have hl : i.toNat < s.bank.length := by simp only [State.N] at h₁; omega
  simp [State.setReg, State.reg, List.getD_eq_getElem?_getD, hl]

/-- Of two writes of one register the second stands. -/
@[simp] theorem State.setReg_setReg (s : State) (i v w : Int) : (s.setReg i v).setReg i w = s.setReg i w := by
  simp [State.setReg]

/-- The value of an existing register is one of the bank's. -/
theorem State.reg_mem (s : State) {i : Int} (h : isRegister s.N i) : s.reg i ∈ s.bank := by
  obtain ⟨h₀, h₁⟩ := h
  have hl : i.toNat < s.bank.length := by simp only [State.N] at h₁; omega
  simp [State.reg, List.getD_eq_getElem?_getD, hl]

/-- A value of the bank after a write is the written one or one of the bank's before. -/
theorem State.mem_setReg (s : State) {i v w : Int} (h : w ∈ (s.setReg i v).bank) : w = v ∨ w ∈ s.bank :=
  (List.mem_or_eq_of_mem_set h).symm

end Sys2Proof.Machine
end

