-- ==== Sys2Proof/Laws/Ops.lean ====
section
/-! SUPPORT. What the shared operations can do: the checked accesses, the three lines of a meaning, the fetch and the
sequencing of a step. -/

namespace Sys2Proof.Machine

theorem State.readReg_ok {s : State} {i : Int} (h : isRegister s.N i) (code : Cause) (k : Int → Result) :
    s.readReg code i k = k (s.reg i) := if_pos h

theorem State.readReg_bad {s : State} {i : Int} (h : ¬ isRegister s.N i) (code : Cause) (k : Int → Result) :
    s.readReg code i k = .next (s.abort code i) := if_neg h

theorem State.writeReg_ok {s : State} {i : Int} (h : isRegister s.N i) (code : Cause) (v : Int) :
    s.writeReg code i v = .next (s.setReg i v) := if_pos h

theorem State.writeReg_bad {s : State} {i : Int} (h : ¬ isRegister s.N i) (code : Cause) (v : Int) :
    s.writeReg code i v = .next (s.abort code i) := if_neg h

theorem State.regA_ok {s : State} {a : Int} (h : isRegister s.N a) (k : Int → Result) : s.regA a k = k (s.reg a) :=
  State.readReg_ok h _ k

theorem State.regA_bad {s : State} {a : Int} (h : ¬ isRegister s.N a) (k : Int → Result) :
    s.regA a k = .next (s.abort .srcARange a) := State.readReg_bad h _ k

theorem State.regB_ok {s : State} {b : Int} (h : isRegister s.N b) (k : Int → Result) : s.regB b k = k (s.reg b) :=
  State.readReg_ok h _ k

theorem State.regB_bad {s : State} {b : Int} (h : ¬ isRegister s.N b) (k : Int → Result) :
    s.regB b k = .next (s.abort .srcBRange b) := State.readReg_bad h _ k

theorem State.writeC_ok {s : State} {c : Int} (h : isRegister s.N c) (v : Int) :
    s.writeC c v = .next (s.setReg c v) := State.writeReg_ok h _ v

theorem State.writeC_bad {s : State} {c : Int} (h : ¬ isRegister s.N c) (v : Int) :
    s.writeC c v = .next (s.abort .dstCRange c) := State.writeReg_bad h _ v

/-- A write of register `c` leaves everything but that register as it was. -/
theorem State.setReg_sameButReg {s : State} {c : Int} (h : isRegister s.N c) (v : Int) :
    State.SameButReg c s (s.setReg c v) where
  N := by simp
  reg := fun _ hr hne => State.reg_setReg_other s h hr hne v
  ip := rfl
  ipr := rfl
  steps := rfl
  status := rfl
  cause := rfl
  fval := rfl
  W := rfl
  SW := rfl
  monitor := rfl
  len := rfl
  byte := fun _ => rfl

/-- `Fetch` of a position of the program. -/
theorem State.fetch_ok {s : State} {p : Int} (h : s.program.Holds p) :
    s.fetch p = .ok (s.program.record s.W p.toNat) := if_pos h

/-- After a line that did not abort the next line runs. -/
theorem Result.thenLine_next {t : State} (h : t.status ≠ .aborted) (line : State → Result) :
    Result.thenLine (.next t) line = line t := if_neg h

/-- After an abort no line runs. -/
theorem Result.thenLine_abort (s : State) (code : Cause) (val : Int) (line : State → Result) :
    Result.thenLine (.next (s.abort code val)) line = .next (s.abort code val) := rfl

/-- The three ends of an iteration before the instruction: halt (R106). -/
theorem State.iterate_halt {s : State} (h : ¬ s.program.Holds s.ip) : s.iterate = .next (s.endRun .halted) :=
  if_pos h

/-- Abort at step (a) (R108). -/
theorem State.iterate_badIpr {s : State} (h : s.program.Holds s.ip) (hr : ¬ isRegister s.N s.ipr) :
    s.iterate = .next (s.abort .iprRange s.ipr) := by
  unfold State.iterate State.stepA
  rw [if_neg (not_not.2 h), State.writeReg_bad hr, Result.thenLine_abort]

/-- Stop at the predicate (R113). -/
theorem State.iterate_stop {s : State} (hs : s.status = .running) (h : s.program.Holds s.ip) (hr : isRegister s.N s.ipr)
    (hm : (s.setReg s.ipr s.ip).shouldStop = true) :
    s.iterate = .next ((s.setReg s.ipr s.ip).endRun .stopped) := by
  unfold State.iterate State.stepA
  rw [if_neg (not_not.2 h), State.writeReg_ok hr, Result.thenLine_next (by simp [hs]), if_pos hm]

/-- Otherwise the record at `ip` is executed on the bank with `x[ipr] = ip` (R109). -/
theorem State.iterate_exec {s : State} {i : Instr} (h : s.Ready i) :
    s.iterate =
      Result.thenLine (exec i (s.setReg s.ipr s.ip)) fun t => .next t.stepC.stepD := by
  have hp : (s.setReg s.ipr s.ip).program.Holds s.ip := h.inside
  have hf : (s.setReg s.ipr s.ip).fetch (s.setReg s.ipr s.ip).ip = .ok i :=
    (State.fetch_ok hp).trans (congrArg _ h.record)
  unfold State.iterate State.stepA
  rw [if_neg (not_not.2 h.inside), State.writeReg_ok h.ipr, Result.thenLine_next (by simp [h.running]),
    if_neg (by simp [h.noStop])]
  unfold State.stepB
  rw [hf]

end Sys2Proof.Machine
end

