-- ==== Sys2Proof/Laws/PerInstr.lean ====
section
/-! SUPPORT. What holds of each instruction as syntax: one lemma per constructor of `Instr`. -/

namespace Sys2Proof.Laws.Fields

/-- The four fields rebuild the record (30_encoding.md R45), and at every width the low four bits of the packed word are
its opcode number (R47, R48). -/
def Statement (i : Instr) : Prop :=
  Instr.ofFields i.opNumber i.a i.b i.c = i ∧ ∀ W, (encodeWord W i).toNat % 16 = i.opNumber.toNat

/-- The low four bits of a packed word are the last field of the concatenation. -/
theorem low_bits (W : Nat) (i : Instr) : (encodeWord W i).toNat % 16 = i.opNumber.toNat := by
  rw [show 16 = 2 ^ 4 from rfl, ← BitVec.toNat_setWidth (x := encodeWord W i) (i := 4)]
  congr 1
  ext k hk
  unfold encodeWord
  simp only [BitVec.getElem_setWidth, BitVec.getLsbD_append]
  simp [hk, show k < W + 4 by omega, show k < W + (W + 4) by omega]

theorem addr (a b c : Int) : Statement (.addr a b c) := ⟨rfl, fun W => low_bits W _⟩
theorem addi (a b c : Int) : Statement (.addi a b c) := ⟨rfl, fun W => low_bits W _⟩
theorem mulr (a b c : Int) : Statement (.mulr a b c) := ⟨rfl, fun W => low_bits W _⟩
theorem muli (a b c : Int) : Statement (.muli a b c) := ⟨rfl, fun W => low_bits W _⟩
theorem banr (a b c : Int) : Statement (.banr a b c) := ⟨rfl, fun W => low_bits W _⟩
theorem bani (a b c : Int) : Statement (.bani a b c) := ⟨rfl, fun W => low_bits W _⟩
theorem borr (a b c : Int) : Statement (.borr a b c) := ⟨rfl, fun W => low_bits W _⟩
theorem bori (a b c : Int) : Statement (.bori a b c) := ⟨rfl, fun W => low_bits W _⟩
theorem setr (a b c : Int) : Statement (.setr a b c) := ⟨rfl, fun W => low_bits W _⟩
theorem seti (a b c : Int) : Statement (.seti a b c) := ⟨rfl, fun W => low_bits W _⟩
theorem gtrr (a b c : Int) : Statement (.gtrr a b c) := ⟨rfl, fun W => low_bits W _⟩
theorem gtri (a b c : Int) : Statement (.gtri a b c) := ⟨rfl, fun W => low_bits W _⟩
theorem gtir (a b c : Int) : Statement (.gtir a b c) := ⟨rfl, fun W => low_bits W _⟩
theorem eqrr (a b c : Int) : Statement (.eqrr a b c) := ⟨rfl, fun W => low_bits W _⟩
theorem eqri (a b c : Int) : Statement (.eqri a b c) := ⟨rfl, fun W => low_bits W _⟩
theorem eqir (a b c : Int) : Statement (.eqir a b c) := ⟨rfl, fun W => low_bits W _⟩

end Sys2Proof.Laws.Fields
end

