-- ==== Sys2Proof/Laws/Run.lean ====
section
/-! SUPPORT. Everything one step of a running machine can do, and how a fact about one step becomes a fact about `k`. -/

namespace Sys2Proof.Machine

theorem step_of_running {s : State} (h : s.status = .running) : step s = s.iterate := if_pos h

/-- A step of a running machine halts, aborts at step (a), stops, or executes the one record at `ip` (R107). -/
theorem step_running_cases {s : State} (h : s.status = .running) :
    (¬ s.program.Holds s.ip ∧ step s = .next (s.endRun .halted)) ∨
    (s.program.Holds s.ip ∧ ¬ isRegister s.N s.ipr ∧ step s = .next (s.abort .iprRange s.ipr)) ∨
    (s.program.Holds s.ip ∧ isRegister s.N s.ipr ∧ (s.setReg s.ipr s.ip).shouldStop = true ∧
      step s = .next ((s.setReg s.ipr s.ip).endRun .stopped)) ∨
    ∃ i, s.Ready i ∧ step s = Result.thenLine (exec i (s.setReg s.ipr s.ip)) fun t => .next t.stepC.stepD := by
  rw [step_of_running h]
  by_cases hp : s.program.Holds s.ip
  · by_cases hr : isRegister s.N s.ipr
    · by_cases hm : (s.setReg s.ipr s.ip).shouldStop = true
      · exact .inr (.inr (.inl ⟨hp, hr, hm, State.iterate_stop h hp hr hm⟩))
      · have ready : s.Ready (s.program.record s.W s.ip.toNat) := ⟨h, hp, hr, by simpa using hm, rfl⟩
        exact .inr (.inr (.inr ⟨_, ready, State.iterate_exec ready⟩))
    · exact .inr (.inl ⟨hp, hr, State.iterate_badIpr hp hr⟩)
  · exact .inl ⟨hp, State.iterate_halt hp⟩

/-- The first step of a run of steps. -/
theorem run_succ {s t : State} (k : Nat) (h : step s = .next t) :
    Host.Core.run core (k + 1) s = Host.Core.run core k t := by
  have one : ∀ (M : Host.Core) (a b : M.State), M.step a = .next b → M.run (k + 1) a = M.run k b := by
    intro M a b hab
    simp only [Host.Core.run, hab]
  exact one core s t h

/-- What every step answers with a next state and keeps, every run of steps answers with a next state and keeps. -/
theorem run_keeps {P : State → Prop} (keep : ∀ s, P s → ∃ t, step s = .next t ∧ P t) (k : Nat) {s : State} (h : P s) :
    ∃ t, Host.Core.run core k s = .next t ∧ P t := by
  induction k generalizing s with
  | zero => exact ⟨s, rfl, h⟩
  | succ k ih =>
    obtain ⟨t, e, ht⟩ := keep s h
    obtain ⟨u, e', hu⟩ := ih ht
    exact ⟨u, (run_succ k e).trans e', hu⟩

end Sys2Proof.Machine
end

