-- ==== Sys2Proof/Machine/Assembler.lean ====
section
/-! DEFINITION. The assembly text of 30_encoding.md R60: `mnemonic(a, b, c)` in decimal, `_` for an ignored operand,
a program in brackets; and the line form of R62. Text is a list of characters. No step of the machine depends on this
file (notes/assumptions/11.md). -/

namespace Sys2Proof.Machine

/-- The mnemonics in the order of their opcode numbers (R48). -/
def mnemonics : List (List Char) :=
  [['a','d','d','r'], ['a','d','d','i'], ['m','u','l','r'], ['m','u','l','i'],
   ['b','a','n','r'], ['b','a','n','i'], ['b','o','r','r'], ['b','o','r','i'],
   ['s','e','t','r'], ['s','e','t','i'], ['g','t','r','r'], ['g','t','r','i'],
   ['g','t','i','r'], ['e','q','r','r'], ['e','q','r','i'], ['e','q','i','r']]

/-- The words of the assembly text. -/
inductive Token where
  | name (cs : List Char)
  | number (v : Int)
  | blank
  | leftParen
  | rightParen
  | leftBracket
  | rightBracket
  | comma
  | hash
  deriving DecidableEq, Repr

/-- What the reader of characters has begun: nothing, a name (last letter first), a sign, or digits after a sign. -/
inductive Partial where
  | nothing
  | name (rev : List Char)
  | sign (negative : Bool)
  | digits (negative : Bool) (n : Nat)
  deriving DecidableEq, Repr

/-- The word begun so far, completed; a sign alone is no word. -/
def Partial.flush : Partial → Option (List Token)
  | .nothing => some []
  | .name rev => some [.name rev.reverse]
  | .sign _ => none
  | .digits neg n => some [.number (if neg then -(n : Int) else n)]

/-- A character that stands for itself: a delimiter, the blank operand, a sign, or white space. -/
def readMark (ch : Char) : Option (List Token × Partial) :=
  if ch = '(' then some ([.leftParen], .nothing)
  else if ch = ')' then some ([.rightParen], .nothing)
  else if ch = '[' then some ([.leftBracket], .nothing)
  else if ch = ']' then some ([.rightBracket], .nothing)
  else if ch = ',' then some ([.comma], .nothing)
  else if ch = '#' then some ([.hash], .nothing)
  else if ch = '_' then some ([.blank], .nothing)
  else if ch = '-' then some ([], .sign true)
  else if ch = '+' then some ([], .sign false)
  else if ch = ' ' ∨ ch = '\n' then some ([], .nothing)
  else none

/-- The value of a decimal digit. -/
def digitOf (ch : Char) : Option Nat :=
  if '0' ≤ ch ∧ ch ≤ '9' then some (ch.toNat - '0'.toNat) else none

/-- Whether a character can stand in a mnemonic. -/
def isLetter (ch : Char) : Bool := 'a' ≤ ch ∧ ch ≤ 'z'

/-- One more character: the words it completes and what is now begun; `none` where R60 has no such text. -/
def readChar (p : Partial) (ch : Char) : Option (List Token × Partial) :=
  match p, digitOf ch with
  | .nothing, some d => some ([], .digits false d)
  | .sign neg, some d => some ([], .digits neg d)
  | .digits neg n, some d => some ([], .digits neg (10 * n + d))
  | .name _, some _ => none
  | .name rev, none =>
    if isLetter ch then some ([], .name (ch :: rev))
    else (readMark ch).map fun r => (.name rev.reverse :: r.1, r.2)
  | .nothing, none => if isLetter ch then some ([], .name [ch]) else readMark ch
  | p, none => p.flush.bind fun ts => (readMark ch).map fun r => (ts ++ r.1, r.2)

/-- The words of a text. -/
def tokens (p : Partial) : List Char → Option (List Token)
  | [] => p.flush
  | ch :: cs => (readChar p ch).bind fun r => (tokens r.2 cs).map fun ts => r.1 ++ ts

/-- An operand: a number, or `_` where the opcode ignores the field, which assembles to 0 (R60). -/
def operandOf (kind : OperandKind) : Token → Option Int
  | .number v => some v
  | .blank => if kind = .ignored then some 0 else none
  | _ => none

/-- The record that a mnemonic and three operands write (R60). -/
def instrOf (name : List Char) (a b c : Token) : Option Instr := do
  let op ← mnemonics.findIdx? (· = name)
  let kinds := Instr.ofFields (BitVec.ofNat 4 op) 0 0 0
  let a ← operandOf kinds.kindA a
  let b ← operandOf kinds.kindB b
  let c ← operandOf .register c
  pure (Instr.ofFields (BitVec.ofNat 4 op) a b c)

/-- Instructions separated by commas, up to the closing bracket. -/
def instrsOf : List Token → Option (List Instr)
  | .name m :: .leftParen :: a :: .comma :: b :: .comma :: c :: .rightParen :: rest =>
    match rest with
    | [.rightBracket] => (instrOf m a b c).map fun i => [i]
    | .comma :: rest => (instrOf m a b c).bind fun i => (instrsOf rest).map fun P => i :: P
    | _ => none
  | _ => none

/-- A program text, `"[" instruction { "," instruction } "]"` or `"[" "]"` (R60). -/
def assemble (text : List Char) : Option (List Instr) :=
  match tokens .nothing text with
  | some [.leftBracket, .rightBracket] => some []
  | some (.leftBracket :: ts) => instrsOf ts
  | _ => none

/-- The byte image of a program text for a machine of width `W` (R59, R60); `none` for a text that R60 does not have and
for an operand that is no `W`-bit value (R45). -/
def assembleImage (W : Nat) (text : List Char) : Option (List Byte) :=
  (assemble text).bind fun P => if ∀ i ∈ P, i.fits W then some (encodeProgram W P) else none

/-- The lines of a text. -/
def lines : List Char → List (List Char)
  | [] => [[]]
  | ch :: cs =>
    if ch = '\n' then [] :: lines cs
    else
      match lines cs with
      | [] => [[ch]]
      | l :: ls => (ch :: l) :: ls

/-- One line `mnemonic a b c` (R62), every operand a number. -/
def instrOfLine (line : List Char) : Option Instr :=
  match tokens .nothing line with
  | some [.name m, .number a, .number b, .number c] => instrOf m (.number a) (.number b) (.number c)
  | _ => none

/-- The line form of R62: `#ip n` nominates register `n`, then one instruction on each line (empty lines are
skipped). The answer is `IPR` and the program. -/
def assembleLines (text : List Char) : Option (Int × List Instr) :=
  match lines text with
  | [] => none
  | directive :: ls =>
    match tokens .nothing directive with
    | some [.hash, .name ['i', 'p'], .number n] =>
      ((ls.filter fun l => !l.isEmpty).mapM instrOfLine).map fun P => (n, P)
    | _ => none

end Sys2Proof.Machine
end

