-- ==== Sys2Proof/Tests/Slice0.lean ====
section
/-! SUPPORT. Small tests, each on values taken from the spec (95_test_vectors.md unless said otherwise), and a witness
for the hypotheses of every statement of Sys2Proof/Certificates/Slice0/Obligations.lean that has any. -/

namespace Sys2Proof.Tests

open Sys2Proof Sys2Proof.Machine

/-- A machine of width `W` with this bank and a 64-bit step counter, nothing presented. -/
def machine (W : Nat) (bank : List Int) : State := { State.instantiated 0 W 64 with bank := bank }

/-- The state after a host command, or the same state if it is refused. -/
def after (c : HostCommand) (s : State) : State :=
  match hostCommand c s with
  | .next (_, t) => t
  | _ => s

/-- A run just issued: the program presented as its image, then `run(ipr, ip)`. -/
def onRun (W : Nat) (P : List Instr) (ipr ip : Int) (bank : List Int) : State :=
  after (.run ipr ip) (after (.present (encodeProgram W P)) (machine W bank))

/-- The bank, cause code and `fval` of a next state. -/
def bankOf : Result → Option (List Int × Nat × Int)
  | .next t => some (t.bank, t.cause.number, t.fval)
  | _ => none

/-- The status number, `ip`, `steps` and bank of a next state. -/
def runOf : Result → Option (Nat × Int × Nat × List Int)
  | .next t => some (t.status.number, t.ip, t.steps, t.bank)
  | _ => none

/-- What a port refused. -/
def refusalOf : Host.Outcome (HostReply × State) Fault Refusal → Option Refusal
  | .refused q => some q
  | _ => none

/-- What a port answered. -/
def replyOf : Host.Outcome (HostReply × State) Fault Refusal → Option HostReply
  | .next (r, _) => some r
  | _ => none

/-! ## Well-formedness (30_encoding.md R45, R57): each check refuses an ill-formed term -/

theorem test_fits_accepts : (Instr.addi (-128) 127 0).fits 8 := by decide
theorem test_fits_refuses_a : ¬ (Instr.addi (-129) 0 0).fits 8 := by decide
theorem test_fits_refuses_b : ¬ (Instr.addi 0 128 0).fits 8 := by decide
theorem test_fits_refuses_c : ¬ (Instr.addi 0 0 (2 ^ 70)).fits 64 := by decide
theorem test_wellFormed_accepts : (Instr.gtir 99 2 0).wellFormed 3 ∧ (Instr.setr 2 (-1) 1).wellFormed 3 := by decide
theorem test_wellFormed_refuses_a : ¬ (Instr.addi 3 0 0).wellFormed 3 := by decide
theorem test_wellFormed_refuses_b : ¬ (Instr.gtir 0 (-1) 0).wellFormed 3 := by decide
theorem test_wellFormed_refuses_c : ¬ (Instr.seti 0 0 3).wellFormed 3 := by decide
theorem test_program_accepts : programWellFormed 5 4 [.addi 0 5 0, .addi 4 1 4] := by decide
theorem test_program_refuses_ipr : ¬ programWellFormed 5 5 [.addi 0 5 0, .addi 4 1 4] := by decide
theorem test_program_refuses_record : ¬ programWellFormed 4 3 [.addi 0 5 0, .addi 4 1 4] := by decide

/-! ## Decoding: the words of section 2.9, V-ENC-1 to V-ENC-22, all sixteen constructors -/

theorem test_decode_add :
    decodeTableWord 196 0x0000000000000001000000000000000200000000000000030 = some (.addr 1 2 3) ∧
    decodeTableWord 196 0x0000000000000001000000000000000200000000000000031 = some (.addi 1 2 3) ∧
    decodeTableWord 196 0x0000000000000001ffffffffffffffff00000000000000011 = some (.addi 1 (-1) 1) := by decide

theorem test_decode_mul :
    decodeTableWord 196 0x0000000000000001000000000000000200000000000000032 = some (.mulr 1 2 3) ∧
    decodeTableWord 196 0x0000000000000001000000000000000200000000000000033 = some (.muli 1 2 3) ∧
    decodeTableWord 196 0xffffffffffffffffffffffffffffffffffffffffffffffff3 = some (.muli (-1) (-1) (-1)) := by decide

theorem test_decode_and :
    decodeTableWord 196 0x0000000000000001000000000000000200000000000000034 = some (.banr 1 2 3) ∧
    decodeTableWord 196 0x0000000000000001000000000000000200000000000000035 = some (.bani 1 2 3) ∧
    decodeTableWord 196 0x00000000000000037fffffffffffffff00000000000000035 = some (.bani 3 9223372036854775807 3) := by
  decide

theorem test_decode_or :
    decodeTableWord 196 0x0000000000000001000000000000000200000000000000036 = some (.borr 1 2 3) ∧
    decodeTableWord 196 0x0000000000000001000000000000000200000000000000037 = some (.bori 1 2 3) ∧
    decodeTableWord 196 0x123456789abcdef00fedcba98765432100000000000000aa7 =
      some (.bori 1311768467463790320 1147797409030816545 170) := by decide

theorem test_decode_set :
    decodeTableWord 196 0x0000000000000001000000000000000200000000000000038 = some (.setr 1 2 3) ∧
    decodeTableWord 196 0x0000000000000001000000000000000200000000000000039 = some (.seti 1 2 3) ∧
    decodeTableWord 196 0x8000000000000000000000000000000000000000000000009 = some (.seti (-9223372036854775808) 0 0) := by
  decide

theorem test_decode_gt :
    decodeTableWord 196 0x000000000000000100000000000000020000000000000003a = some (.gtrr 1 2 3) ∧
    decodeTableWord 196 0x000000000000000100000000000000020000000000000003b = some (.gtri 1 2 3) ∧
    decodeTableWord 196 0x000000000000000100000000000000020000000000000003c = some (.gtir 1 2 3) := by decide

theorem test_decode_eq :
    decodeTableWord 196 0x000000000000000100000000000000020000000000000003d = some (.eqrr 1 2 3) ∧
    decodeTableWord 196 0x000000000000000100000000000000020000000000000003e = some (.eqri 1 2 3) ∧
    decodeTableWord 196 0x000000000000000100000000000000020000000000000003f = some (.eqir 1 2 3) ∧
    decodeTableWord 196 0xfffffffffffffffffffffffffffffffffffffffffffffffff = some (.eqir (-1) (-1) (-1)) := by decide

/-- Section 2.9: at `W = 32` the word has 100 bits. -/
theorem test_decode_w32 :
    decodeWord 32 0x00000001ffffffff000000011 = .addi 1 (-1) 1 ∧ decodeWord 32 0x000000480000000100000000f = .eqir 72 1 0 := by
  decide

/-- Section 2.9: the 50 bytes of the image of P1. -/
theorem test_image_of_p1 : encodeProgram 64 [.addi 0 5 0, .addi 4 1 4] =
    [0x01, 0, 0, 0, 0, 0, 0, 0, 0x50, 0, 0, 0, 0, 0, 0, 0, 0, 0, 0, 0, 0, 0, 0, 0, 0] ++
    [0x41, 0, 0, 0, 0, 0, 0, 0, 0x10, 0, 0, 0, 0, 0, 0, 0, 0x40, 0, 0, 0, 0, 0, 0, 0, 0] := by decide

/-- 20_memory.md R34: too few bytes, and a padding bit that is not zero, are no word (`W = 8`: 28 bits in 4 bytes). -/
theorem test_decode_rejects : decode 8 [1, 2, 3] = .error .truncated ∧
    decode 8 [0x31, 0x20, 0x10, 0x10] = .error .paddingNotZero ∧
    decode 8 [0x31, 0x20, 0x10, 0x00, 0x7f] = .ok (.addi 1 2 3, [0x7f]) := ⟨rfl, rfl, rfl⟩

/-! ## Instructions -/

theorem test_addr_wraps : bankOf (exec (.addr 0 1 2) (machine 64 [9223372036854775807, 1, 0])) =
    some ([9223372036854775807, 1, -9223372036854775808], 0, 0) := by decide

theorem test_addr_first_bad_index : bankOf (exec (.addr 0 6 7) (machine 64 [1, 2, 3])) = some ([1, 2, 3], 3, 6) := by
  decide

theorem test_addi_immediate_is_no_index : bankOf (exec (.addi 0 (-8) 1) (machine 64 [7, 0])) = some ([7, -1], 0, 0) := by
  decide

theorem test_addi_bad_destination : bankOf (exec (.addi 0 99 3) (machine 64 [1, 2, 3])) = some ([1, 2, 3], 4, 3) := by
  decide

theorem test_mulr_wraps : bankOf (exec (.mulr 0 0 1) (machine 64 [3037000500, 0])) =
    some ([3037000500, -9223372036709301616], 0, 0) := by decide

theorem test_mulr_source_is_destination : bankOf (exec (.mulr 0 0 0) (machine 64 [9, 0, 0])) = some ([81, 0, 0], 0, 0) := by
  decide

theorem test_muli_wraps : bankOf (exec (.muli 0 (-1) 1) (machine 64 [-9223372036854775808, 9])) =
    some ([-9223372036854775808, -9223372036854775808], 0, 0) := by decide

theorem test_muli_bad_destination : bankOf (exec (.muli 0 (-1) (-1)) (machine 64 [1, 2, 3])) = some ([1, 2, 3], 4, -1) := by
  decide

theorem test_banr_negative : bankOf (exec (.banr 0 1 2) (machine 64 [-6, -4, 0])) = some ([-6, -4, -8], 0, 0) := by decide

theorem test_banr_bad_b : bankOf (exec (.banr 0 9223372036854775807 0) (machine 64 [1, 2, 3])) =
    some ([1, 2, 3], 3, 9223372036854775807) := by decide

theorem test_bani_sign_bit : bankOf (exec (.bani 0 (-9223372036854775808) 1) (machine 64 [-1, 0])) =
    some ([-1, -9223372036854775808], 0, 0) := by decide

theorem test_bani_w32 : bankOf (exec (.bani 0 65535 1) (machine 32 [-1, 0])) = some ([-1, 65535], 0, 0) := by decide

theorem test_borr_negative : bankOf (exec (.borr 0 1 2) (machine 64 [-8, 3, 0])) = some ([-8, 3, -5], 0, 0) := by decide

theorem test_borr_frame : bankOf (exec (.borr 1 2 3) (machine 64 [11, 22, 33, 44])) = some ([11, 22, 33, 55], 0, 0) := by
  decide

theorem test_bori_w8 : bankOf (exec (.bori 0 15 1) (machine 8 [-16, 0])) = some ([-16, -1], 0, 0) := by decide

theorem test_bori_bad_a : bankOf (exec (.bori (-9223372036854775808) 0 0) (machine 64 [1, 2, 3])) =
    some ([1, 2, 3], 2, -9223372036854775808) := by decide

theorem test_setr_ignores_b : bankOf (exec (.setr 1 (-1) 0) (machine 64 [9, -4, 77])) = some ([-4, -4, 77], 0, 0) := by
  decide

theorem test_setr_first_bad_index : bankOf (exec (.setr (-1) 0 7) (machine 64 [1, 2, 3])) = some ([1, 2, 3], 2, -1) := by
  decide

theorem test_seti_a_is_a_value : bankOf (exec (.seti 99 99 0) (machine 64 [9, -4, 77])) = some ([99, -4, 77], 0, 0) := by
  decide

theorem test_seti_bad_destination : bankOf (exec (.seti 3 0 3) (machine 64 [1, 2, 3])) = some ([1, 2, 3], 4, 3) := by
  decide

theorem test_gtrr_is_signed : bankOf (exec (.gtrr 0 1 2) (machine 64 [0, -1, 9])) = some ([0, -1, 1], 0, 0) := by decide

theorem test_gtrr_source_is_destination : bankOf (exec (.gtrr 0 1 0) (machine 64 [7, 3])) = some ([1, 3], 0, 0) := by decide

theorem test_gtri_is_strict : bankOf (exec (.gtri 0 7 1) (machine 64 [7, 9])) = some ([7, 0], 0, 0) := by decide

theorem test_gtri_bad_a : bankOf (exec (.gtri 3 0 0) (machine 64 [1, 2, 3])) = some ([1, 2, 3], 2, 3) := by decide

theorem test_gtir_a_is_a_value : bankOf (exec (.gtir 100 1 0) (machine 64 [9, 7])) = some ([1, 7], 0, 0) := by decide

theorem test_gtir_bad_b : bankOf (exec (.gtir 5 3 0) (machine 64 [1, 2, 3])) = some ([1, 2, 3], 3, 3) := by decide

theorem test_eqrr_into_a_source : bankOf (exec (.eqrr 0 1 1) (machine 64 [0, 0])) = some ([0, 1], 0, 0) := by decide

theorem test_eqrr_first_bad_index : bankOf (exec (.eqrr 0 3 3) (machine 64 [1, 2, 3])) = some ([1, 2, 3], 3, 3) := by decide

theorem test_eqri_full_width : bankOf (exec (.eqri 0 4294967295 1) (machine 64 [-1, 9])) = some ([-1, 0], 0, 0) := by decide

theorem test_eqri_bad_destination : bankOf (exec (.eqri 0 0 3) (machine 64 [1, 2, 3])) = some ([1, 2, 3], 4, 3) := by decide

theorem test_eqir_a_is_a_value : bankOf (exec (.eqir 72 1 0) (machine 64 [9, 72])) = some ([1, 72], 0, 0) := by decide

theorem test_eqir_first_bad_index : bankOf (exec (.eqir 0 (-1) 9) (machine 64 [1, 2, 3])) = some ([1, 2, 3], 3, -1) := by
  decide

/-! ## One step of the run loop -/

/-- V-RUN-1, V-RUN-5: an empty program, and a negative `initial_ip`; even `x[ipr]` is untouched. -/
theorem test_step_halts_at_once :
    runOf (step (onRun 64 [] 0 0 [9, 9, 9])) = some (2, 0, 0, [9, 9, 9]) ∧
    runOf (step (onRun 64 [.addi 0 1 0, .addi 0 1 0] 2 (-1) [4, 5, 6])) = some (2, -1, 0, [4, 5, 6]) := by decide

/-- V-RUN-11: the increment wraps. -/
theorem test_step_increment_wraps : runOf (step (onRun 64 [.seti 9223372036854775807 0 2] 2 0 [0, 0, 0])) =
    some (1, -9223372036854775808, 1, [0, 0, 9223372036854775807]) := by decide

/-- Section 2.11: the same at `W = 8`. -/
theorem test_step_increment_wraps_w8 : runOf (step (onRun 8 [.seti 127 0 1] 1 0 [0, 0])) = some (1, -128, 1, [0, 127]) := by
  decide

/-- V-RUN-17: a read of `x[ipr]` gives the position of the reader. -/
theorem test_step_reads_own_position :
    runOf (step (onRun 64 [.addi 1 0 0, .addi 1 0 0, .setr 1 0 0] 1 2 [0, 0])) = some (1, 3, 1, [2, 2]) := by decide

/-- V-RUN-13: `seti(2, _, I)` goes on at position 3. -/
theorem test_step_jump_lands_one_past :
    runOf (step (onRun 64 [.seti 2 0 1, .addi 0 1 0, .addi 0 10 0, .addi 0 100 0] 1 0 [0, 0])) =
      some (1, 3, 1, [0, 2]) := by decide

/-- P1, step 2. -/
theorem test_step_p1 : runOf (step (onRun 64 [.addi 0 5 0, .addi 4 1 4] 4 1 [12, 0, 0, 0, 0, 0])) =
    some (1, 3, 1, [12, 0, 0, 0, 2, 0]) := by decide

/-- V-RUN-20, V-RUN-21: a bad `ipr` aborts at step (a) with nothing written. -/
theorem test_step_bad_ipr :
    bankOf (step (onRun 64 [.addi 0 1 0] 3 0 [9, 9, 9])) = some ([9, 9, 9], 1, 3) ∧
    bankOf (step (onRun 64 [.addi 0 1 0] (-1) 0 [9, 9, 9])) = some ([9, 9, 9], 1, -1) := by decide

/-- V-RUN-24: step (a) is done before the operands are checked. -/
theorem test_step_abort_is_precise :
    bankOf (step (onRun 64 [.setr (-1) 0 7] 2 0 [9, 9, 9])) = some ([9, 9, 0], 2, -1) ∧
    runOf (step (onRun 64 [.setr (-1) 0 7] 2 0 [9, 9, 9])) = some (4, 0, 0, [9, 9, 0]) := by decide

/-- P4: the predicate `ip = 3 and x[1] = 2` is true at step 14 of P2, whose bank at that point is given there. -/
theorem test_step_stops :
    runOf (step { onRun 64 [.seti 5 0 1, .addr 0 1 0, .addi 1 (-1) 1, .eqri 1 0 2] 4 3 [12, 2, 0, 0, 2, 0] with
      monitor := .conj (.ipEq 3) (.regEq 1 2) }) = some (3, 3, 0, [12, 2, 0, 0, 3, 0]) := by decide

/-- P7: the second `run` starts from the first run's bank. -/
theorem test_second_run_keeps_bank :
    runOf (step (after (.run 2 0)
      { after (.present (encodeProgram 64 [.addi 0 1 0])) (machine 64 [1, 0, 0]) with
        status := .halted, ip := 1, ipr := 2, steps := 1 })) = some (1, 1, 1, [2, 0, 0]) := by decide

/-- The step counter wraps (10_state.md R17): at `SW` = 4 the sixteenth step leaves 0. -/
theorem test_steps_wrap : (match step { onRun 8 [.seti 0 0 0] 1 0 [0, 0] with SW := 4, steps := 15 } with
    | .next t => t.steps | _ => 1) = 0 := by decide

/-! ## Placing one instruction word -/

/-- The word of V-ENC-10, `seti(1, 2, 3)`, runs as the first instruction after reset: `x[3]` is 1 and `ip` is 1. -/
theorem test_first_instruction_after_reset :
    runOf (step (State.reset.withFetchWord 196 0x0000000000000001000000000000000200000000000000039)) =
      some (1, 1, 1, [0, 0, 0, 1, 0, 0]) := by decide

/-! ## Reset, memory and the host's ports -/

/-- 10_state.md R23: power-on is the constructed state of the model's parameters. -/
theorem test_reset : State.reset = State.instantiated 6 64 64 ∧ State.reset.construct = State.reset := by decide

theorem test_reset_memory_wf : Mem.wf State.reset.program.image := by decide

/-- Writing what an unlisted address reads as removes the entry; the order of the writes does not show. -/
theorem test_memory_canonical :
    Mem.write (Mem.write [] 5 7) 5 0 = [] ∧ Mem.write (Mem.write [] 5 7) 3 1 = Mem.write (Mem.write [] 3 1) 5 7 ∧
    Mem.read (Mem.write (Mem.write [] 5 7) 3 1) 5 = 7 ∧ Mem.read (Mem.write [] 5 7) 4 = unlistedByte := by decide

/-- 10_state.md R22, 44_run_loop.md R105: what is refused while RUNNING and while ABORTED. -/
theorem test_ports_refuse :
    refusalOf (hostCommand (.run 0 0) (onRun 8 [] 0 0 [0, 0])) = some .whileRunning ∧
    refusalOf (hostCommand (.readCr 0) (onRun 8 [] 0 0 [0, 0])) = some .whileRunning ∧
    refusalOf (hostCommand (.run 0 0) ((machine 8 [0, 0]).abort .iprRange 2)) = some .whileAborted ∧
    refusalOf (hostCommand (.writeReg 0 0) ((machine 8 [0, 0]).abort .iprRange 2)) = some .whileAborted ∧
    refusalOf (hostCommand (.readReg 2) (machine 8 [0, 0])) = some (.noSuchRegister 2) ∧
    refusalOf (hostCommand (.writeReg 1 128) (machine 8 [0, 0])) = some (.notAWord 128) ∧
    refusalOf (hostCommand (.present [1, 2, 3]) (machine 8 [0, 0])) = some .malformedImage ∧
    refusalOf (hostCommand (.present (encodeProgram 2 [.seti 0 0 0, .seti 0 0 0])) (machine 2 [0])) =
      some (.programTooLong 2) ∧
    refusalOf (hostCommand (.readCr 7) (machine 8 [0, 0])) = some (.noSuchControlRegister 7) := by decide

/-- 60_exceptions.md R136: an aborted machine is read, and only `construct` leaves it. -/
theorem test_aborted_is_read :
    replyOf (hostCommand (.readCr 1) ((machine 8 [5, 6]).abort .srcBRange 2)) = some (.number 3) ∧
    replyOf (hostCommand (.readCr 5) ((machine 8 [5, 6]).abort .srcBRange 2)) = some (.word 2) ∧
    replyOf (hostCommand (.readReg 1) ((machine 8 [5, 6]).abort .srcBRange 2)) = some (.word 6) ∧
    after .construct ((machine 8 [5, 6]).abort .srcBRange 2) = machine 8 [0, 0] := by decide

/-- 10_state.md R20: CR6. -/
theorem test_config_register :
    replyOf (hostCommand (.readCr 6) (after (.present (encodeProgram 8 [.seti 0 0 0])) (machine 8 [0, 0]))) =
      some (.config 2 8 64 1) := by decide

/-- 70_reset_and_hazards.md R159, second column: what the host may do is performed, and what it must not is refused. -/
theorem test_host_duties :
    hostMay (.run 0 0) .idle = true ∧ hostMay (.run 0 0) .running = false ∧ hostMay (.run 0 0) .aborted = false ∧
    hostMay .construct .running = false ∧ hostMay .construct .aborted = true ∧ hostMay (.readCr 0) .aborted = true ∧
    hostMay (.attach .absent) .stopped = true ∧ hostMay (.writeReg 0 0) .halted = true := by decide

/-! ## The assembly text (30_encoding.md R60, R62) -/

theorem test_assemble : assemble "[addi(0, 5, 0), setr(1, _, 2)]".toList = some [.addi 0 5 0, .setr 1 0 2] ∧
    assemble "[]".toList = some [] := by decide

theorem test_assemble_rejects : assemble "[addi(0, _, 1)]".toList = none ∧ assemble "[xddi(0, 1, 1)]".toList = none ∧
    assemble "[addi(0, 1, 1),]".toList = none ∧ assemble "[addi(0, 1)]".toList = none := by decide

theorem test_assemble_image : assembleImage 8 "[addi(1, 2, 3)]".toList = some [0x31, 0x20, 0x10, 0x00] ∧
    assembleImage 8 "[addi(1, 128, 3)]".toList = none := by decide

theorem test_assemble_lines : assembleLines "#ip 0\nseti 5 0 1\naddi 1 -3 2\n".toList =
    some (0, [.seti 5 0 1, .addi 1 (-3) 2]) := by decide

/-! ## Witnesses: for every statement with hypotheses, states and operands that meet them

`m3` has registers 0, 1, 2, so index 2 is the last legal one and 3 and -1 are the first illegal ones. -/

/-- Three registers at `W = 8`, IDLE. -/
def m3 : State := machine 8 [1, 2, 3]

/-- A run of one instruction on three registers, `ipr` = 2, at position 0. -/
def at0 (i : Instr) : State := onRun 8 [i] 2 0 [1, 2, 3]

/-- A run of `i` after a no-op, at its last position, 1, with `ipr` = 2. -/
def at1 (i : Instr) : State := onRun 8 [.setr 0 0 0, i] 2 1 [1, 2, 3]

/-- A run with a bad `ipr`. -/
def badIpr (r : Int) : State := onRun 8 [.setr 0 0 0] r 0 [1, 2, 3]

theorem ok_of {s : State}
    (h : Config.legal s.N s.W s.SW s.program.len ∧ (∀ v ∈ s.bank, inRange s.W v) ∧
      (inRange s.W s.ip ∧ inRange s.W s.ipr ∧ inRange s.W s.fval ∧ s.steps < 2 ^ s.SW) ∧
      (s.cause = .none ↔ s.status ≠ .aborted) ∧ (s.status ≠ .aborted → s.fval = 0) ∧
      Mem.wf s.program.image ∧ (∀ x ∈ s.program.image, x.1 < s.program.len * wordBytes s.W) ∧
      ∀ p < s.program.len,
        numberOf (Mem.readBytes s.program.image (p * wordBytes s.W) (wordBytes s.W)) < 2 ^ wordBits s.W) : s.Ok :=
  ⟨h.1, h.2.1, h.2.2.1.1, h.2.2.1.2.1, h.2.2.1.2.2.1, h.2.2.1.2.2.2, h.2.2.2.1, h.2.2.2.2.1,
    h.2.2.2.2.2.1, h.2.2.2.2.2.2.1, h.2.2.2.2.2.2.2⟩

theorem ready_of {s : State} {i : Instr}
    (h : s.status = .running ∧ s.program.Holds s.ip ∧ isRegister s.N s.ipr ∧
      (s.setReg s.ipr s.ip).shouldStop = false ∧ s.program.record s.W s.ip.toNat = i) : s.Ready i :=
  ⟨h.1, h.2.1, h.2.2.1, h.2.2.2.1, h.2.2.2.2⟩

theorem shape_running {s : State} (e : s.status = .running)
    (h : s.steps ≠ 0 → isRegister s.N s.ipr ∧ s.ip = wrap s.W (s.reg s.ipr + 1)) : s.RunShape := by
  unfold State.RunShape; rw [e]; exact h

theorem shape_halted {s : State} (e : s.status = .halted)
    (h : ¬ s.program.Holds s.ip ∧ (s.steps ≠ 0 → isRegister s.N s.ipr ∧ s.ip = wrap s.W (s.reg s.ipr + 1))) :
    s.RunShape := by
  unfold State.RunShape; rw [e]; exact h

theorem shape_stopped {s : State} (e : s.status = .stopped)
    (h : s.program.Holds s.ip ∧ isRegister s.N s.ipr ∧ s.reg s.ipr = s.ip) : s.RunShape := by
  unfold State.RunShape; rw [e]; exact h

theorem shape_aborted {s : State} (e : s.status = .aborted)
    (h : s.program.Holds s.ip ∧ ¬ isRegister s.N s.fval ∧ (s.cause = .iprRange → s.fval = s.ipr) ∧
      (s.cause ≠ .iprRange → isRegister s.N s.ipr ∧ s.reg s.ipr = s.ip)) : s.RunShape := by
  unfold State.RunShape; rw [e]; exact h

/-- EncodedInstructionDecodes: at `W = 64` with the operands at both ends of the range, and at `W = 1`. -/
theorem test_witness_encoded : (1 ≤ 64 ∧ (Instr.addi (-2 ^ 63) (2 ^ 63 - 1) 0).fits 64) ∧
    1 ≤ 1 ∧ (Instr.seti (-1) 0 (-1)).fits 1 := by decide

/-- AcceptedBytesAreAnEncoding. -/
theorem test_witness_accepted : 1 ≤ 8 ∧ decode 8 [0xff, 0xff, 0xff, 0x0f, 0x01] = .ok (.eqir (-1) (-1) (-1), [0x01]) :=
  ⟨by decide, rfl⟩

/-- EveryWordDecodesToOneRecord: the least width, and a record that fits. -/
theorem test_witness_word : 1 ≤ 1 ∧ (Instr.seti (-1) 0 (-1)).fits 1 := by decide

/-- PresentedProgramIsFetched: an empty program, and one of the greatest length, 1 at `W = 2`. -/
theorem test_witness_presented : (m3.status ≠ .running ∧ 1 ≤ m3.W ∧ ([] : List Instr).length < 2 ^ (m3.W - 1)) ∧
    (machine 2 [0]).status ≠ .running ∧ (∀ i ∈ [Instr.seti 1 (-2) 0], i.fits 2) ∧
    [Instr.seti 1 (-2) 0].length < 2 ^ ((machine 2 [0]).W - 1) ∧ 0 < [Instr.seti 1 (-2) 0].length := by decide

/-- FetchedRecordIsTheStoredWord: both positions of a program of two, and the positions just outside. -/
theorem test_witness_fetch : 1 ≤ (at1 (.seti 5 0 0)).W ∧ (at1 (.seti 5 0 0)).program.Ok (at1 (.seti 5 0 0)).W ∧
    ((at1 (.seti 5 0 0)).program.Holds 0 ∧ (at1 (.seti 5 0 0)).program.Holds 1) ∧
    ¬ (at1 (.seti 5 0 0)).program.Holds 2 ∧ ¬ (at1 (.seti 5 0 0)).program.Holds (-1) :=
  ⟨by decide, (ok_of (by decide) : (at1 (.seti 5 0 0)).Ok).program, by decide⟩

/-- SilentMonitorIsInvisible: a watchpoint on a value the register does not hold. -/
theorem test_witness_silent : (Monitor.regEq 2 5).answer ((at1 (.seti 5 0 0)).bank.set (at1 (.seti 5 0 0)).ipr.toNat
    (at1 (.seti 5 0 0)).ip) (at1 (.seti 5 0 0)).ip (at1 (.seti 5 0 0)).steps = false := by decide

/-- LeavingTheProgramHalts: one below the program, one past it, and an empty program. -/
theorem test_witness_leaving :
    ((onRun 8 [.seti 0 0 0] 0 (-1) [0]).status = .running ∧
      ¬ (0 ≤ (onRun 8 [.seti 0 0 0] 0 (-1) [0]).ip)) ∧
    ((onRun 8 [.seti 0 0 0] 0 1 [0]).status = .running ∧
      ¬ ((onRun 8 [.seti 0 0 0] 0 1 [0]).ip < ((onRun 8 [.seti 0 0 0] 0 1 [0]).program.len : Int))) ∧
    (onRun 8 [] 0 0 [0]).status = .running ∧
      ¬ ((onRun 8 [] 0 0 [0]).ip < ((onRun 8 [] 0 0 [0]).program.len : Int)) := by decide

/-- BadInstructionPointerRegisterAborts: -1 and `N`. -/
theorem test_witness_bad_ipr :
    ((badIpr (-1)).status = .running ∧ (badIpr (-1)).program.Holds (badIpr (-1)).ip ∧
      ¬ isRegister (badIpr (-1)).N (badIpr (-1)).ipr) ∧
    (badIpr 3).status = .running ∧ (badIpr 3).program.Holds (badIpr 3).ip ∧ ¬ isRegister (badIpr 3).N (badIpr 3).ipr := by
  decide

/-- A run about to be stopped: the watchpoint is on what step (a) writes. -/
def aboutToStop : State := { at1 (.seti 5 0 0) with monitor := .regEq 2 1 }

/-- PredicateStopsBeforeTheInstruction, StoppedRunResumes (its last clause, too). -/
theorem test_witness_stop : aboutToStop.Ok ∧ aboutToStop.WellFormed ∧ aboutToStop.status = .running ∧ aboutToStop.program.Holds aboutToStop.ip ∧
    isRegister aboutToStop.N aboutToStop.ipr ∧
    aboutToStop.monitor.answer (aboutToStop.bank.set aboutToStop.ipr.toNat aboutToStop.ip) aboutToStop.ip
      aboutToStop.steps = true ∧
    (aboutToStop.setReg aboutToStop.ipr aboutToStop.ip).shouldStop = true :=
  ⟨ok_of (by decide), ⟨by decide, by decide⟩, by decide⟩

/-- StepRunsTheDecodedInstruction: both parts, the second with a well-formed instruction, the first also with one that
is not. -/
theorem test_witness_step :
    ((at1 (.addi 2 (-1) 0)).status = .running ∧ (at1 (.addi 2 (-1) 0)).program.Holds 1 ∧
      isRegister (at1 (.addi 2 (-1) 0)).N (at1 (.addi 2 (-1) 0)).ipr ∧
      ((at1 (.addi 2 (-1) 0)).setReg 2 1).shouldStop = false ∧ (Instr.addi 2 (-1) 0).wellFormed 3) ∧
    decode 8 (Mem.readBytes (at1 (.addi 2 (-1) 0)).program.image (1 * wordBytes 8) (wordBytes 8)) =
      .ok (.addi 2 (-1) 0, []) ∧
    decode 8 (Mem.readBytes (at1 (.addi 3 (-1) 0)).program.image (1 * wordBytes 8) (wordBytes 8)) =
      .ok (.addi 3 (-1) 0, []) :=
  ⟨by decide, rfl, rfl⟩

/-- IllFormedInstructionAbortsPrecisely: each of the three codes. -/
theorem test_witness_ill_formed :
    ((at0 (.addr 3 9 9)).Ready (.addr 3 9 9) ∧ (Instr.addr 3 9 9).firstBad 3 = some (.srcARange, 3)) ∧
    ((at0 (.gtir 9 (-1) 9)).Ready (.gtir 9 (-1) 9) ∧ (Instr.gtir 9 (-1) 9).firstBad 3 = some (.srcBRange, -1)) ∧
    (at1 (.seti 9 9 3)).Ready (.seti 9 9 3) ∧ (Instr.seti 9 9 3).firstBad 3 = some (.dstCRange, 3) :=
  ⟨⟨ready_of (by decide), by decide⟩, ⟨ready_of (by decide), by decide⟩, ready_of (by decide), by decide⟩

/-- EveryStepAnswersANextState (its second clause), StepLeavesProgramAndLatchesAlone, StepCounterCountsCompletedSteps: a
running state, its step, an accepted `run` and an instruction that answers. -/
theorem test_witness_running_step : (at0 (.seti 5 0 0)).status = .running ∧
    (∃ t, step (at0 (.seti 5 0 0)) = .next t) ∧ (∃ t, hostCommand (.run 2 0) m3 = .next (.done, t)) ∧
    ∃ t, exec (.seti 5 0 0) m3 = .next t :=
  ⟨by decide, ⟨_, rfl⟩, ⟨_, rfl⟩, _, rfl⟩

/-- NotRunningHoldsItsState, and the second clause's premise of ControlRegistersRead: the four other statuses. -/
theorem test_witness_not_running : ∀ e : Status, e = .idle ∨ e = .halted ∨ e = .stopped ∨ e = .aborted →
    ({ m3 with status := e } : State).status ≠ .running := by
  rintro e (rfl | rfl | rfl | rfl) <;> decide

/-- AddrAddsRegisters, MulrMultipliesRegisters, BanrAndsRegisters, BorrOrsRegisters, GtrrComparesRegisters,
EqrrComparesRegisters: the hypotheses of each of the four clauses, at the boundary indices, the destination also a
source. -/
theorem test_witness_three_registers :
    (¬ isRegister m3.N 3 ∧ ¬ isRegister m3.N (-1)) ∧ (isRegister m3.N 2 ∧ ¬ isRegister m3.N 3) ∧
    (isRegister m3.N 0 ∧ isRegister m3.N 2 ∧ ¬ isRegister m3.N 3) ∧
    isRegister m3.N 0 ∧ isRegister m3.N 2 ∧ isRegister m3.N 2 := by decide

/-- AddiAddsImmediate, MuliMultipliesByImmediate, BaniAndsImmediate, BoriOrsImmediate, SetrCopiesRegister,
GtriComparesWithImmediate, EqriComparesWithImmediate: the hypotheses on `a` and `c` of each of the three clauses. -/
theorem test_witness_a_and_c :
    (¬ isRegister m3.N 3 ∧ ¬ isRegister m3.N (-1)) ∧ (isRegister m3.N 2 ∧ ¬ isRegister m3.N (-1)) ∧
    isRegister m3.N 0 ∧ isRegister m3.N 0 := by decide

/-- GtirComparesImmediate, EqirComparesImmediate: the hypotheses on `b` and `c` of each of the three clauses. -/
theorem test_witness_b_and_c :
    (¬ isRegister m3.N 3 ∧ ¬ isRegister m3.N (-1)) ∧ (isRegister m3.N 0 ∧ ¬ isRegister m3.N 3) ∧
    isRegister m3.N 2 ∧ isRegister m3.N 0 := by decide

/-- SetiLoadsImmediate: both clauses. -/
theorem test_witness_c_only : (¬ isRegister m3.N 3 ∧ ¬ isRegister m3.N (-1)) ∧ isRegister m3.N 0 ∧ isRegister m3.N 2 := by
  decide

/-- OperandsAreCheckedInOrder has no hypothesis; both arms of its match occur. -/
theorem test_witness_checked : (Instr.addr 0 1 2).firstBad m3.N = none ∧
    (Instr.addr 0 3 3).firstBad m3.N = some (.srcBRange, 3) := by decide

/-- WellFormedRunNeverAborts: a program that reads and writes at the last index. -/
theorem test_witness_well_formed : (at1 (.addr 2 2 2)).WellFormed ∧ (at1 (.addr 2 2 2)).Safe ∧
    ∃ t, step (at1 (.addr 2 2 2)) = .next t :=
  ⟨⟨by decide, by decide⟩, by decide, _, rfl⟩

/-- StepKeepsTheInvariant, StepKeepsTheRunShape: a running state, and the run shape of each other status. -/
theorem test_witness_invariants : (at1 (.seti 127 0 2)).Ok ∧ (at1 (.seti 127 0 2)).RunShape ∧
    (∃ t, step (at1 (.seti 127 0 2)) = .next t) ∧
    ({ at1 (.seti 5 0 0) with steps := 1, bank := [1, 2, 0] } : State).RunShape ∧
    ({ at1 (.seti 5 0 0) with status := .halted, ip := 2, steps := 1, bank := [1, 2, 1] } : State).RunShape ∧
    ({ aboutToStop with status := .stopped, bank := [1, 2, 1] } : State).RunShape ∧
    ({ at1 (.seti 5 0 3) with status := .aborted, cause := .dstCRange, fval := 3, bank := [1, 2, 1] } : State).RunShape :=
  ⟨ok_of (by decide), shape_running rfl (by decide), ⟨_, rfl⟩, shape_running rfl (by decide), shape_halted rfl (by decide),
    shape_stopped rfl (by decide), shape_aborted rfl (by decide)⟩

/-- HostCommandsKeepTheInvariant: an accepted command of every kind. -/
theorem test_witness_host_commands : m3.Ok ∧ (∃ r t, hostCommand .construct m3 = .next (r, t)) ∧
    (∃ r t, hostCommand (.run 127 (-128)) m3 = .next (r, t)) ∧ (∃ r t, hostCommand (.readReg 2) m3 = .next (r, t)) ∧
    (∃ r t, hostCommand (.writeReg 0 127) m3 = .next (r, t)) ∧ (∃ r t, hostCommand (.readCr 6) m3 = .next (r, t)) ∧
    (∃ r t, hostCommand (.present (encodeProgram 8 [.seti 1 2 3])) m3 = .next (r, t)) ∧
    ∃ r t, hostCommand (.attach (.external 0)) m3 = .next (r, t) :=
  ⟨ok_of (by decide), ⟨_, _, rfl⟩, ⟨_, _, rfl⟩, ⟨_, _, rfl⟩, ⟨_, _, rfl⟩, ⟨_, _, rfl⟩, ⟨_, _, rfl⟩, _, _, rfl⟩

/-- ExecSeesOnlyTheBank: two different states with one bank and one width. -/
theorem test_witness_same_bank : m3.bank = (at0 (.seti 5 0 0)).bank ∧ m3.W = (at0 (.seti 5 0 0)).W ∧
    m3 ≠ at0 (.seti 5 0 0) := by decide

/-- StepCountDoesNotSteerTheRun. -/
theorem test_witness_no_monitor : (at0 (.seti 5 0 0)).monitor = .absent ∧ (at0 (.seti 5 0 0)).WellFormed ∧
    (at0 (.seti 5 0 0)).Safe := ⟨by decide, ⟨by decide, by decide⟩, by decide⟩

/-- AbortIsFinalAndOnlyIllFormedRunsAbort: both clauses. -/
theorem test_witness_abort_is_final : (m3.abort .dstCRange 3).status = .aborted ∧ (at1 (.addr 2 2 2)).WellFormed ∧
    (at1 (.addr 2 2 2)).Safe := ⟨by decide, ⟨by decide, by decide⟩, by decide⟩

/-- NextIpIsOnePastTheValueLeft: an instruction that does not write `x[ipr]`, one that leaves -1 in it (the run goes on at
0), one that leaves `L - 1` (the run halts). -/
theorem test_witness_next_ip :
    ((at1 (.seti 5 0 0)).Ok ∧ (at1 (.seti 5 0 0)).Ready (.seti 5 0 0) ∧ (Instr.seti 5 0 0).wellFormed 3) ∧
    ((at1 (.seti (-1) 0 2)).Ok ∧ (at1 (.seti (-1) 0 2)).Ready (.seti (-1) 0 2)) ∧
    (at1 (.seti 1 0 2)).Ok ∧ (at1 (.seti 1 0 2)).Ready (.seti 1 0 2) :=
  ⟨⟨ok_of (by decide), ready_of (by decide), by decide⟩, ⟨ok_of (by decide), ready_of (by decide)⟩,
    ok_of (by decide), ready_of (by decide)⟩

/-- IdiomTargets, clause by clause, `I` = 2 and position 1 (the values left are also boundary ones: `T` = -128 wraps). -/
theorem test_witness_idioms :
    ((at1 (.addi 2 0 2)).Ok ∧ (at1 (.addi 2 0 2)).Ready (.addi 2 0 2)) ∧
    ((at1 (.setr 2 9 2)).Ok ∧ (at1 (.setr 2 9 2)).Ready (.setr 2 9 2)) ∧
    ((at1 (.muli 2 1 2)).Ok ∧ (at1 (.muli 2 1 2)).Ready (.muli 2 1 2)) ∧
    ((at1 (.bori 2 0 2)).Ok ∧ (at1 (.bori 2 0 2)).Ready (.bori 2 0 2)) ∧
    ((at1 (.seti (-128) 0 2)).Ok ∧ (at1 (.seti (-128) 0 2)).Ready (.seti (-127 - 1) 0 2)) ∧
    ((at1 (.addi 2 127 2)).Ok ∧ (at1 (.addi 2 127 2)).Ready (.addi 2 127 2)) ∧
    ((at1 (.addi 2 (-1) 2)).Ok ∧ (at1 (.addi 2 (-1) 2)).Ready (.addi 2 (-1) 2)) ∧
    ((at1 (.addr 0 2 2)).Ok ∧ isRegister 3 0 ∧ (0 : Int) ≠ 2 ∧ (at1 (.addr 0 2 2)).Ready (.addr 0 2 2)) ∧
    ((at1 (.addr 2 0 2)).Ok ∧ (at1 (.addr 2 0 2)).Ready (.addr 2 0 2)) ∧
    ((at1 (.setr 1 0 2)).Ok ∧ (at1 (.setr 1 0 2)).Ready (.setr 1 0 2)) :=
  ⟨⟨ok_of (by decide), ready_of (by decide)⟩, ⟨ok_of (by decide), ready_of (by decide)⟩,
    ⟨ok_of (by decide), ready_of (by decide)⟩, ⟨ok_of (by decide), ready_of (by decide)⟩,
    ⟨ok_of (by decide), ready_of (by decide)⟩, ⟨ok_of (by decide), ready_of (by decide)⟩,
    ⟨ok_of (by decide), ready_of (by decide)⟩, ⟨ok_of (by decide), by decide, by decide, ready_of (by decide)⟩,
    ⟨ok_of (by decide), ready_of (by decide)⟩, ⟨ok_of (by decide), ready_of (by decide)⟩⟩

/-- IdiomTargets, the remaining clauses. -/
theorem test_witness_idioms_compare :
    ((at1 (.gtrr 0 1 2)).Ok ∧ (Instr.gtrr 0 1 2).wellFormed 3 ∧ (at1 (.gtrr 0 1 2)).Ready (.gtrr 0 1 2)) ∧
    ((at1 (.eqir 9 1 2)).Ok ∧ (Instr.eqir 9 1 2).wellFormed 3 ∧ (at1 (.eqir 9 1 2)).Ready (.eqir 9 1 2)) ∧
    ((at1 (.addi 2 127 0)).Ok ∧ (at1 (.addi 2 127 0)).Ready (.addi 2 127 0)) ∧
    ((at1 (.setr 2 0 1)).Ok ∧ (at1 (.setr 2 0 1)).Ready (.setr 2 0 1)) ∧
    ((at1 (.mulr 2 2 2)).Ok ∧ (at1 (.mulr 2 2 2)).Ready (.mulr 2 2 2)) :=
  ⟨⟨ok_of (by decide), by decide, ready_of (by decide)⟩, ⟨ok_of (by decide), by decide, ready_of (by decide)⟩,
    ⟨ok_of (by decide), ready_of (by decide)⟩, ⟨ok_of (by decide), ready_of (by decide)⟩,
    ⟨ok_of (by decide), ready_of (by decide)⟩⟩

/-- HostRegisterAccess, RunCommandStartsARun, OnlyConstructLeavesAborted, RunningRefusesTheHost: a state and values for
each clause. -/
theorem test_witness_host :
    (m3.status ≠ .running ∧ m3.status ≠ .aborted ∧ isRegister m3.N 2 ∧ ¬ isRegister m3.N 3 ∧
      inRange m3.W 127 ∧ inRange m3.W (-128)) ∧
    (at0 (.seti 5 0 0)).status = .running ∧ (m3.abort .iprRange 3).status = .aborted ∧
    (HostCommand.readReg 0 ≠ .construct) ∧ replyOf (hostCommand (.readReg 0) (m3.abort .iprRange 3)) = some (.word 1) := by
  decide

/-- AllowedCommandsAreAccepted: a command of every kind in IDLE, its operands at the ends of their ranges, and a read of an
aborted machine. -/
theorem test_witness_allowed :
    (hostMay (.run 127 (-128)) m3.status = true ∧ (HostCommand.run 127 (-128)).Legal m3) ∧
    (hostMay (.readReg 2) m3.status = true ∧ (HostCommand.readReg 2).Legal m3) ∧
    (hostMay (.writeReg 0 127) m3.status = true ∧ (HostCommand.writeReg 0 127).Legal m3) ∧
    (hostMay (.readCr 6) m3.status = true ∧ (HostCommand.readCr 6).Legal m3) ∧
    (hostMay (.present (encodeProgram 2 [.seti 1 (-2) 0])) (machine 2 [0]).status = true ∧
      (HostCommand.present (encodeProgram 2 [.seti 1 (-2) 0])).Legal (machine 2 [0])) ∧
    (hostMay (.attach (.external 0)) m3.status = true ∧ (HostCommand.attach (.external 0)).Legal m3) ∧
    (hostMay .construct m3.status = true ∧ HostCommand.construct.Legal m3) ∧
    hostMay (.readReg 0) (m3.abort .iprRange 3).status = true ∧ (HostCommand.readReg 0).Legal (m3.abort .iprRange 3) :=
  ⟨⟨rfl, by decide, by decide⟩, ⟨rfl, by decide, by decide⟩, ⟨rfl, by decide, by decide⟩,
    ⟨rfl, (by decide : 6 < 7)⟩, ⟨rfl, [.seti 1 (-2) 0], by decide, by decide, rfl⟩, ⟨rfl, trivial⟩, ⟨rfl, trivial⟩,
    rfl, by decide, by decide⟩

/-- AttachChangesOnlyTheMonitor: each status of its clauses. -/
theorem test_witness_attach : m3.status = .idle ∧ ({ m3 with status := .halted } : State).status = .halted ∧
    ({ m3 with status := .stopped } : State).status = .stopped ∧ (at0 (.seti 5 0 0)).status = .running := by decide

/-- ArithmeticLaws, BitwiseLaws, SetLaws, CompareLaws: registers with `W`-bit values at both ends of the range, a
well-formed instruction of each family, an `m` congruent to the negated least immediate, and non-negative operands. -/
theorem test_witness_laws :
    ((Instr.addr 0 1 2).wellFormed m3.N ∧ (Instr.bani 0 99 2).wellFormed m3.N ∧ (Instr.gtir 99 1 2).wellFormed m3.N) ∧
    (isRegister (machine 8 [127, -128]).N 1 ∧ inRange 8 ((machine 8 [127, -128]).reg 1) ∧
      inRange 8 ((machine 8 [127, -128]).reg 0) ∧ 1 ≤ (machine 8 [127, -128]).W) ∧
    (-128 : Int) ≡ -(-128) [ZMOD 2 ^ 8] ∧ (0 ≤ (127 : Int) ∧ inRange 8 127 ∧ (0 : Int) ≤ 0 ∧ inRange 8 0) := by
  decide

/-- StepBoundEndsTheRun: a bound not yet reached, and one reached. -/
theorem test_witness_bound :
    (({ at0 (.seti (-1) 0 2) with monitor := .stepsEq 3 } : State).status = .running ∧
      ({ at0 (.seti (-1) 0 2) with monitor := .stepsEq 3 } : State).steps ≤ 3 ∧ 3 < 2 ^ (at0 (.seti (-1) 0 2)).SW) ∧
    ({ at0 (.seti (-1) 0 2) with monitor := .stepsEq 0 } : State).steps ≤ 0 ∧
    ({ at0 (.seti (-1) 0 2) with monitor := .stepsEq 3 } : State).WellFormed := ⟨by decide, by decide, ⟨by decide, by decide⟩⟩

end Sys2Proof.Tests
end

section
/-! SUPPORT. What each instruction writes, the one equation that says what `exec` answers (30_encoding.md R49, R53,
60_exceptions.md R135), and that a fetched record has `W`-bit operands. -/

namespace Sys2Proof

open Machine

/-- The value an instruction writes to its register `c` when no operand is out of range (40_arithmetic.md to
43_compare.md). -/
def Instr.result (s : State) : Instr → Int
  | .addr a b _ => aluAdd s.W (s.reg a) (s.reg b)
  | .addi a b _ => aluAdd s.W (s.reg a) b
  | .mulr a b _ => aluMul s.W (s.reg a) (s.reg b)
  | .muli a b _ => aluMul s.W (s.reg a) b
  | .banr a b _ => aluAnd s.W (s.reg a) (s.reg b)
  | .bani a b _ => aluAnd s.W (s.reg a) b
  | .borr a b _ => aluOr s.W (s.reg a) (s.reg b)
  | .bori a b _ => aluOr s.W (s.reg a) b
  | .setr a _ _ => s.reg a
  | .seti a _ _ => a
  | .gtrr a b _ => aluGt (s.reg a) (s.reg b)
  | .gtri a b _ => aluGt (s.reg a) b
  | .gtir a b _ => aluGt a (s.reg b)
  | .eqrr a b _ => aluEq (s.reg a) (s.reg b)
  | .eqri a b _ => aluEq (s.reg a) b
  | .eqir a b _ => aluEq a (s.reg b)

/-- The answer of an instruction whose one write is of `v`: the abort of its first bad operand, or else that write. -/
def Instr.answer (s : State) (i : Instr) (v : Int) : Result :=
  (i.firstBad s.N).elim (.next (s.setReg i.c v)) fun bad => .next (s.abort bad.1 bad.2)

theorem Instr.firstBad_eq_none_iff {N : Nat} {i : Instr} : i.firstBad N = none ↔ i.wellFormed N := by
  unfold Instr.firstBad
  split_ifs <;> simp <;> tauto

/-- An ill-formed instruction reports a code of its own, neither 0 nor `IPR_RANGE`, and one of its three fields. -/
theorem Instr.firstBad_some {N : Nat} {i : Instr} {code : Cause} {v : Int} (h : i.firstBad N = some (code, v)) :
    code ≠ .none ∧ code ≠ .iprRange ∧ ¬ isRegister N v ∧ (v = i.a ∨ v = i.b ∨ v = i.c) := by
  unfold Instr.firstBad at h
  split_ifs at h with ha hb hc
  · cases h
    simp [ha.2]
  · cases h
    simp [hb.2]
  · cases h
    simp [hc]

section Forms
/-! The four operand forms of R49's table: which of `a` and `b` are registers. -/

variable {i : Instr} {s : State}

/-- Neither source is a register. -/
theorem Instr.answer_write (ha : i.kindA ≠ .register) (hb : i.kindB ≠ .register) (v : Int) :
    s.writeC i.c v = i.answer s v := by
  simp only [Instr.answer, Instr.firstBad, ha, hb, false_and, if_false]
  by_cases hc : isRegister s.N i.c
  · simp [hc, State.writeC_ok]
  · simp [hc, State.writeC_bad]

/-- Only `b` is a register. -/
theorem Instr.answer_readB (ha : i.kindA ≠ .register) (hb : i.kindB = .register) (f : Int → Int) :
    (s.regB i.b fun vb => s.writeC i.c (f vb)) = i.answer s (f (s.reg i.b)) := by
  simp only [Instr.answer, Instr.firstBad, ha, hb, false_and, true_and, if_false]
  by_cases hrb : isRegister s.N i.b
  · by_cases hc : isRegister s.N i.c
    · simp [hrb, hc, State.regB_ok, State.writeC_ok]
    · simp [hrb, hc, State.regB_ok, State.writeC_bad]
  · simp [hrb, State.regB_bad]

/-- Only `a` is a register. -/
theorem Instr.answer_readA (ha : i.kindA = .register) (hb : i.kindB ≠ .register) (f : Int → Int) :
    (s.regA i.a fun va => s.writeC i.c (f va)) = i.answer s (f (s.reg i.a)) := by
  simp only [Instr.answer, Instr.firstBad, ha, hb, false_and, true_and, if_false]
  by_cases hra : isRegister s.N i.a
  · by_cases hc : isRegister s.N i.c
    · simp [hra, hc, State.regA_ok, State.writeC_ok]
    · simp [hra, hc, State.regA_ok, State.writeC_bad]
  · simp [hra, State.regA_bad]

/-- Both sources are registers. -/
theorem Instr.answer_readA_readB (ha : i.kindA = .register) (hb : i.kindB = .register) (f : Int → Int → Int) :
    (s.regA i.a fun va => s.regB i.b fun vb => s.writeC i.c (f va vb)) = i.answer s (f (s.reg i.a) (s.reg i.b)) := by
  simp only [Instr.answer, Instr.firstBad, ha, hb, true_and]
  by_cases hra : isRegister s.N i.a
  · by_cases hrb : isRegister s.N i.b
    · by_cases hc : isRegister s.N i.c
      · simp [hra, hrb, hc, State.regA_ok, State.regB_ok, State.writeC_ok]
      · simp [hra, hrb, hc, State.regA_ok, State.regB_ok, State.writeC_bad]
    · simp [hra, hrb, State.regA_ok, State.regB_bad]
  · simp [hra, State.regA_bad]

end Forms

/-- Every instruction aborts on its first bad operand or writes its result to register `c`. -/
theorem exec_eq_answer (i : Instr) (s : State) : exec i s = i.answer s (i.result s) := by
  cases i with
  | addr a b c => exact Instr.answer_readA_readB (i := .addr a b c) rfl rfl (aluAdd s.W)
  | addi a b c => exact Instr.answer_readA (i := .addi a b c) rfl nofun (aluAdd s.W · b)
  | mulr a b c => exact Instr.answer_readA_readB (i := .mulr a b c) rfl rfl (aluMul s.W)
  | muli a b c => exact Instr.answer_readA (i := .muli a b c) rfl nofun (aluMul s.W · b)
  | banr a b c => exact Instr.answer_readA_readB (i := .banr a b c) rfl rfl (aluAnd s.W)
  | bani a b c => exact Instr.answer_readA (i := .bani a b c) rfl nofun (aluAnd s.W · b)
  | borr a b c => exact Instr.answer_readA_readB (i := .borr a b c) rfl rfl (aluOr s.W)
  | bori a b c => exact Instr.answer_readA (i := .bori a b c) rfl nofun (aluOr s.W · b)
  | setr a b c => exact Instr.answer_readA (i := .setr a b c) rfl nofun id
  | seti a b c => exact Instr.answer_write (i := .seti a b c) nofun nofun a
  | gtrr a b c => exact Instr.answer_readA_readB (i := .gtrr a b c) rfl rfl aluGt
  | gtri a b c => exact Instr.answer_readA (i := .gtri a b c) rfl nofun (aluGt · b)
  | gtir a b c => exact Instr.answer_readB (i := .gtir a b c) nofun rfl (aluGt a)
  | eqrr a b c => exact Instr.answer_readA_readB (i := .eqrr a b c) rfl rfl aluEq
  | eqri a b c => exact Instr.answer_readA (i := .eqri a b c) rfl nofun (aluEq · b)
  | eqir a b c => exact Instr.answer_readB (i := .eqir a b c) nofun rfl (aluEq a)

theorem exec_of_wellFormed {i : Instr} {s : State} (h : i.wellFormed s.N) :
    exec i s = .next (s.setReg i.c (i.result s)) := by
  rw [exec_eq_answer, Instr.answer, Instr.firstBad_eq_none_iff.2 h, Option.elim_none]

theorem exec_of_firstBad {i : Instr} {s : State} {code : Cause} {v : Int} (h : i.firstBad s.N = some (code, v)) :
    exec i s = .next (s.abort code v) := by
  rw [exec_eq_answer, Instr.answer, h, Option.elim_some]

@[simp] theorem Instr.ofFields_a (op : BitVec 4) (a b c : Int) : (Instr.ofFields op a b c).a = a := by
  unfold Instr.ofFields
  split <;> rfl

@[simp] theorem Instr.ofFields_b (op : BitVec 4) (a b c : Int) : (Instr.ofFields op a b c).b = b := by
  unfold Instr.ofFields
  split <;> rfl

@[simp] theorem Instr.ofFields_c (op : BitVec 4) (a b c : Int) : (Instr.ofFields op a b c).c = c := by
  unfold Instr.ofFields
  split <;> rfl

/-- Each operand field of a decoded word is spelled by `W` bits of it (R47). -/
theorem decodeWord_fits (W : Nat) (word : BitVec (wordBits W)) : (decodeWord W word).fits W := by
  simp [decodeWord, Instr.fits, signed_inRange]

theorem inRange_zero (W : Nat) : inRange W 0 := by
  have h : (0 : Int) < 2 ^ (W - 1) := by positivity
  simp only [inRange, intMin, intMax]
  omega

theorem inRange_one {W : Nat} (h : 2 ≤ W) : inRange W 1 := by
  obtain ⟨k, rfl⟩ : ∃ k, W = k + 2 := ⟨W - 2, by omega⟩
  have hk : (0 : Int) < 2 ^ k := by positivity
  simp only [inRange, intMin, intMax, Nat.reduceSubDiff, pow_succ]
  omega

theorem aluGt_inRange {W : Nat} (h : 2 ≤ W) (u v : Int) : inRange W (aluGt u v) := by
  unfold aluGt
  split
  · exact inRange_one h
  · exact inRange_zero W

theorem aluEq_inRange {W : Nat} (h : 2 ≤ W) (u v : Int) : inRange W (aluEq u v) := by
  unfold aluEq
  split
  · exact inRange_one h
  · exact inRange_zero W

/-- What a well-formed instruction writes is a `W`-bit value, if its fields and the bank are. -/
theorem Instr.result_inRange {i : Instr} {s : State} (hW : 2 ≤ s.W) (hbank : ∀ v ∈ s.bank, inRange s.W v)
    (hfits : i.fits s.W) (hwf : i.wellFormed s.N) : inRange s.W (i.result s) := by
  obtain ⟨ha, -, -⟩ := hfits
  obtain ⟨hra, -, -⟩ := hwf
  cases i with
  | addr | addi | mulr | muli => exact wrap_inRange ..
  | banr | bani | borr | bori => exact signed_inRange _
  | setr => exact hbank _ (State.reg_mem s (hra rfl))
  | seti => exact ha
  | gtrr | gtri | gtir => exact aluGt_inRange hW ..
  | eqrr | eqri | eqir => exact aluEq_inRange hW ..

end Sys2Proof
end

section
/-! SUPPORT. The six things a step can do, from every state (44_run_loop.md R107, 60_exceptions.md R146), and that
`State.Ok` is kept by each update of State they are made of. -/

namespace Sys2Proof.Machine

/-- `Transition s t`: one of the things a step can do takes `s` to `t`. -/
inductive Transition (s : State) : State → Prop where
  /-- Outside RUNNING the machine holds its state (R146). -/
  | hold (idle : s.status ≠ .running) : Transition s s
  /-- `ip` has left the program (R106). -/
  | halt (running : s.status = .running) (outside : ¬ s.program.Holds s.ip) : Transition s (s.endRun .halted)
  /-- Step (a) found `ipr` out of range (R108). -/
  | badIpr (running : s.status = .running) (inside : s.program.Holds s.ip) (bad : ¬ isRegister s.N s.ipr) :
    Transition s (s.abort .iprRange s.ipr)
  /-- The predicate answered true after step (a) (R113). -/
  | stop (running : s.status = .running) (inside : s.program.Holds s.ip) (ipr : isRegister s.N s.ipr)
    (answer : (s.setReg s.ipr s.ip).shouldStop = true) : Transition s ((s.setReg s.ipr s.ip).endRun .stopped)
  /-- The instruction aborted on its first bad operand (60_exceptions.md R134, R135). -/
  | illFormed {i : Instr} {code : Cause} {v : Int} (ready : s.Ready i) (bad : i.firstBad s.N = some (code, v)) :
    Transition s ((s.setReg s.ipr s.ip).abort code v)
  /-- The instruction wrote its result, and the step was completed by (c) and (d) (R109 to R112). -/
  | complete {i : Instr} (ready : s.Ready i) (wf : i.wellFormed s.N) :
    Transition s ((s.setReg s.ipr s.ip).setReg i.c (i.result (s.setReg s.ipr s.ip))).stepC.stepD

theorem step_of_not_running {s : State} (h : s.status ≠ .running) : step s = .next s := if_neg h

theorem State.Ready.step_eq {s : State} {i : Instr} (h : s.Ready i) :
    step s = Result.thenLine (exec i (s.setReg s.ipr s.ip)) fun t => .next t.stepC.stepD :=
  (step_of_running h.running).trans (State.iterate_exec h)

theorem State.Ready.step_of_wellFormed {s : State} {i : Instr} (h : s.Ready i) (hwf : i.wellFormed s.N) :
    step s = .next ((s.setReg s.ipr s.ip).setReg i.c (i.result (s.setReg s.ipr s.ip))).stepC.stepD := by
  rw [h.step_eq, exec_of_wellFormed (by rwa [State.setReg_N]), Result.thenLine_next (by simp [h.running])]

theorem State.Ready.step_of_firstBad {s : State} {i : Instr} (h : s.Ready i) {code : Cause} {v : Int}
    (hbad : i.firstBad s.N = some (code, v)) : step s = .next ((s.setReg s.ipr s.ip).abort code v) := by
  rw [h.step_eq, exec_of_firstBad (by rwa [State.setReg_N]), Result.thenLine_abort]

/-- A step always answers a next state, by one of the six transitions. -/
theorem exists_transition (s : State) : ∃ t, step s = .next t ∧ Transition s t := by
  by_cases hs : s.status = .running
  · rcases step_running_cases hs with ⟨hp, e⟩ | ⟨hp, hr, e⟩ | ⟨hp, hr, hm, e⟩ | ⟨i, ready, -⟩
    · exact ⟨_, e, .halt hs hp⟩
    · exact ⟨_, e, .badIpr hs hp hr⟩
    · exact ⟨_, e, .stop hs hp hr hm⟩
    · cases hbad : i.firstBad s.N with
      | none =>
        have hwf := Instr.firstBad_eq_none_iff.1 hbad
        exact ⟨_, ready.step_of_wellFormed hwf, .complete ready hwf⟩
      | some bad => exact ⟨_, ready.step_of_firstBad hbad, .illFormed ready hbad⟩
  · exact ⟨s, step_of_not_running hs, .hold hs⟩

theorem transition_of_step {s t : State} (h : step s = .next t) : Transition s t := by
  obtain ⟨u, e, hu⟩ := exists_transition s
  cases e.symm.trans h
  exact hu

/-- The record an instruction was fetched as has `W`-bit operands. -/
theorem State.Ready.fits {s : State} {i : Instr} (h : s.Ready i) : i.fits s.W :=
  h.record ▸ decodeWord_fits s.W _

theorem State.Ok.setReg {s : State} (h : s.Ok) (i : Int) {v : Int} (hv : inRange s.W v) : (s.setReg i v).Ok where
  legal := by rw [State.setReg_N]; exact h.legal
  bank w hw := by
    rcases State.mem_setReg s hw with rfl | hw
    · exact hv
    · exact h.bank w hw
  ip := h.ip
  ipr := h.ipr
  fval := h.fval
  steps := h.steps
  cause := h.cause
  fvalZero := h.fvalZero
  program := h.program

/-- Ending a run keeps the invariant: `cause` and `fval` are 0 already. -/
theorem State.Ok.endRun {s : State} (h : s.Ok) (hs : s.status ≠ .aborted) {e : Status} (he : e ≠ .aborted) :
    (s.endRun e).Ok where
  legal := h.legal
  bank := h.bank
  ip := h.ip
  ipr := h.ipr
  fval := h.fval
  steps := h.steps
  cause := iff_of_true (h.cause.2 hs) he
  fvalZero _ := h.fvalZero hs
  program := h.program

theorem State.Ok.abort {s : State} (h : s.Ok) {code : Cause} (hcode : code ≠ .none) {v : Int} (hv : inRange s.W v) :
    (s.abort code v).Ok where
  legal := h.legal
  bank := h.bank
  ip := h.ip
  ipr := h.ipr
  fval := hv
  steps := h.steps
  cause := iff_of_false hcode (not_not.2 rfl)
  fvalZero hs := absurd rfl hs
  program := h.program

theorem State.Ok.stepC {s : State} (h : s.Ok) (hr : isRegister s.N s.ipr) : s.stepC.Ok where
  legal := h.legal
  bank := h.bank
  ip := h.bank _ (State.reg_mem s hr)
  ipr := h.ipr
  fval := h.fval
  steps := h.steps
  cause := h.cause
  fvalZero := h.fvalZero
  program := h.program

theorem State.Ok.stepD {s : State} (h : s.Ok) : s.stepD.Ok where
  legal := h.legal
  bank := h.bank
  ip := wrap_inRange ..
  ipr := h.ipr
  fval := h.fval
  steps := Nat.mod_lt _ (by positivity)
  cause := h.cause
  fvalZero := h.fvalZero
  program := h.program

/-- `construct` meets the invariant with any legal parameters and any program that is an image. -/
theorem State.construct_ok {s : State} (legal : Config.legal s.N s.W s.SW s.program.len)
    (program : s.program.Ok s.W) : s.construct.Ok where
  legal := by rw [State.construct_N]; exact legal
  bank v hv := List.eq_of_mem_replicate hv ▸ inRange_zero s.W
  ip := inRange_zero s.W
  ipr := inRange_zero s.W
  fval := inRange_zero s.W
  steps := Nat.two_pow_pos s.SW
  cause := iff_of_true rfl nofun
  fvalZero _ := rfl
  program := program

theorem Program.ok_empty (W : Nat) : Program.Ok W { len := 0, image := [] } where
  canonical := Mem.wf_nil
  inside := nofun
  padding := nofun

/-- Each transition keeps the invariant: what it writes is a `W`-bit value. -/
theorem Transition.ok {s t : State} (h : Transition s t) (hok : s.Ok) : t.Ok := by
  have afterA : (s.setReg s.ipr s.ip).Ok := hok.setReg s.ipr hok.ip
  cases h with
  | hold => exact hok
  | halt running => exact hok.endRun (by simp [running]) nofun
  | badIpr => exact hok.abort (code := .iprRange) nofun hok.ipr
  | stop running => exact afterA.endRun (by simp [running]) nofun
  | illFormed ready bad =>
    obtain ⟨hcode, -, -, hv⟩ := Instr.firstBad_some bad
    obtain ⟨ha, hb, hc⟩ := ready.fits
    refine afterA.abort hcode ?_
    rcases hv with rfl | rfl | rfl
    · exact ha
    · exact hb
    · exact hc
  | @complete i ready wf =>
    have hwf : i.wellFormed (s.setReg s.ipr s.ip).N := by rwa [State.setReg_N]
    have hv := Instr.result_inRange afterA.legal.1 afterA.bank ready.fits hwf
    exact ((afterA.setReg i.c hv).stepC (by simpa using ready.ipr)).stepD

end Sys2Proof.Machine
end

section
/-! The statements of 00_scope.md. -/

namespace Sys2Proof.Machine

/-- Settles O37: each of the six transitions of a step keeps the invariant. -/
theorem stepKeepsTheInvariant : Obligations.StepKeepsTheInvariant :=
  fun _ _ hok h => (transition_of_step h).ok hok

/-- Settles O40: no update a transition is made of writes these fields. -/
theorem stepLeavesProgramAndLatchesAlone : Obligations.StepLeavesProgramAndLatchesAlone := by
  intro s t h
  cases transition_of_step h with
  | hold | halt | badIpr => exact ⟨rfl, rfl, rfl, rfl, rfl, rfl⟩
  | stop | illFormed | complete => simp

/-- Settles O9: power-on is the constructed state, with the empty program and legal parameters. -/
theorem resetMeetsTheInvariants : Obligations.ResetMeetsTheInvariants := by
  have hok : State.reset.construct.Ok := State.construct_ok (by decide) (Program.ok_empty _)
  exact ⟨rfl, hok, trivial, rfl, rfl, rfl, rfl, rfl, rfl⟩

end Sys2Proof.Machine
end

section
/-! SUPPORT. What an accepted byte image is: the decoder's acceptance and the whole words of a program (20_memory.md R34,
30_encoding.md R47, R59). -/

namespace Sys2Proof

/-- The decoder accepts bytes that hold a whole word with zero padding, and answers that word's record and what follows. -/
theorem decode_eq_ok_iff {W : Nat} {bytes rest : List Byte} {i : Instr} :
    decode W bytes = .ok (i, rest) ↔
      wordBytes W ≤ bytes.length ∧ numberOf (bytes.take (wordBytes W)) < 2 ^ wordBits W ∧
        decodeWord W (BitVec.ofNat (wordBits W) (numberOf (bytes.take (wordBytes W)))) = i ∧
        bytes.drop (wordBytes W) = rest := by
  unfold decode
  by_cases hlen : bytes.length < wordBytes W
  · simp [hlen]
  · by_cases hpad : 2 ^ wordBits W ≤ numberOf (bytes.take (wordBytes W))
    · simp [hlen, hpad]
    · simp [hlen, hpad, not_lt.1 hlen, not_le.1 hpad]

namespace Machine

theorem imageOk_succ {W n : Nat} {bytes : List Byte} (h : imageOk W (n + 1) bytes = true) :
    wordBytes W ≤ bytes.length ∧ numberOf (bytes.take (wordBytes W)) < 2 ^ wordBits W ∧
      imageOk W n (bytes.drop (wordBytes W)) = true := by
  cases hd : decode W bytes with
  | error e => simp [imageOk, hd] at h
  | ok r =>
    obtain ⟨hlen, hpad, -, hrest⟩ := decode_eq_ok_iff.1 hd
    simp only [imageOk, hd] at h
    exact ⟨hlen, hpad, hrest ▸ h⟩

/-- An image of `n` words is `n` words long. -/
theorem length_of_imageOk {W n : Nat} {bytes : List Byte} (h : imageOk W n bytes = true) :
    bytes.length = n * wordBytes W := by
  induction n generalizing bytes with
  | zero => simpa [imageOk] using h
  | succ n ih =>
    obtain ⟨hlen, -, hrest⟩ := imageOk_succ h
    have := ih hrest
    rw [List.length_drop] at this
    rw [Nat.succ_mul]
    omega

/-- Every word of an image has zero padding. -/
theorem padding_of_imageOk {W n : Nat} {bytes : List Byte} (h : imageOk W n bytes = true) {p : Nat} (hp : p < n) :
    numberOf ((bytes.drop (p * wordBytes W)).take (wordBytes W)) < 2 ^ wordBits W := by
  induction n generalizing bytes p with
  | zero => omega
  | succ n ih =>
    obtain ⟨-, hpad, hrest⟩ := imageOk_succ h
    cases p with
    | zero => simpa using hpad
    | succ p =>
      rw [Nat.succ_mul, Nat.add_comm, ← List.drop_drop]
      exact ih hrest (by omega)

/-- The store presented by an accepted image is an image. -/
theorem Program.ok_of_ofImage {W : Nat} {bytes : List Byte} {P : Program} (h : Program.ofImage W bytes = some P) :
    P.Ok W := by
  obtain ⟨hok, rfl⟩ : imageOk W (bytes.length / wordBytes W) bytes = true ∧
      { len := bytes.length / wordBytes W, image := Mem.ofBytes 0 bytes } = P := by
    simpa [Program.ofImage] using h
  have hlen := length_of_imageOk hok
  exact {
    canonical := Mem.wf_ofBytes 0 bytes
    inside := fun x hx => by
      obtain ⟨-, hx⟩ := Mem.mem_ofBytes hx
      rwa [Nat.zero_add, hlen] at hx
    padding := fun p hp => by
      have hword : (p + 1) * wordBytes W ≤ bytes.length := hlen ▸ Nat.mul_le_mul_right _ hp
      rw [Mem.readBytes_ofBytes _ _ _ (by rwa [Nat.succ_mul] at hword)]
      exact padding_of_imageOk hok hp }

end Machine

end Sys2Proof
end

section
/-! SUPPORT. Everything the machine can perform at its ports (70_reset_and_hazards.md R157, R159), from every state, and
that `State.Ok` is kept by it. -/

namespace Sys2Proof.Machine

/-- `Performs s c r t`: the machine in state `s` performs the host's command `c`, replies `r`, and is then in state `t`. -/
inductive Performs (s : State) : HostCommand → HostReply → State → Prop where
  /-- `construct` in every status (R155). -/
  | construct : Performs s .construct .done s.construct
  /-- `run` (44_run_loop.md R105). -/
  | run {ipr ip : Int} (notRunning : s.status ≠ .running) (notAborted : s.status ≠ .aborted)
    (ipr_inRange : inRange s.W ipr) (ip_inRange : inRange s.W ip) :
    Performs s (.run ipr ip) .done (s.startRun ipr ip)
  /-- A register read (10_state.md R22). -/
  | readReg {i : Int} (notRunning : s.status ≠ .running) (register : isRegister s.N i) :
    Performs s (.readReg i) (.word (s.reg i)) s
  /-- A register write (R22, 90_conflicts.md C11). -/
  | writeReg {i v : Int} (notRunning : s.status ≠ .running) (notAborted : s.status ≠ .aborted)
    (register : isRegister s.N i) (value_inRange : inRange s.W v) :
    Performs s (.writeReg i v) .done (s.setReg i v)
  /-- A control register read (R20). -/
  | readCr {k : Nat} {r : HostReply} (notRunning : s.status ≠ .running) (content : s.controlRegister k = some r) :
    Performs s (.readCr k) r s
  /-- A program presented as its image (20_memory.md R33, R34). -/
  | present {image : List Byte} {P : Program} (notRunning : s.status ≠ .running)
    (accepted : Program.ofImage s.W image = some P) (short : P.len < 2 ^ (s.W - 1)) :
    Performs s (.present image) .done { s with program := P }
  /-- A monitor attached or detached (R159). -/
  | attach {m : Monitor} (notRunning : s.status ≠ .running) : Performs s (.attach m) .done { s with monitor := m }

/-- A host command is performed or refused; it never faults. -/
theorem hostCommand_cases (c : HostCommand) (s : State) :
    (∃ r t, hostCommand c s = .next (r, t) ∧ Performs s c r t) ∨ ∃ q, hostCommand c s = .refused q := by
  cases c with
  | construct => exact .inl ⟨_, _, rfl, .construct⟩
  | run ipr ip =>
    simp only [hostCommand, State.hostRun]
    split_ifs with hr ha hipr hip
    · exact .inr ⟨_, rfl⟩
    · exact .inr ⟨_, rfl⟩
    · exact .inl ⟨_, _, rfl, .run hr ha hipr hip⟩
    · exact .inr ⟨_, rfl⟩
    · exact .inr ⟨_, rfl⟩
  | readReg i =>
    simp only [hostCommand, State.hostReadReg]
    split_ifs with hr hi
    · exact .inr ⟨_, rfl⟩
    · exact .inl ⟨_, _, rfl, .readReg hr hi⟩
    · exact .inr ⟨_, rfl⟩
  | writeReg i v =>
    simp only [hostCommand, State.hostWriteReg]
    split_ifs with hr ha hi hv
    · exact .inr ⟨_, rfl⟩
    · exact .inr ⟨_, rfl⟩
    · exact .inl ⟨_, _, rfl, .writeReg hr ha hi hv⟩
    · exact .inr ⟨_, rfl⟩
    · exact .inr ⟨_, rfl⟩
  | readCr k =>
    simp only [hostCommand, State.hostReadCr]
    split_ifs with hr
    · exact .inr ⟨_, rfl⟩
    · cases hk : s.controlRegister k with
      | none => exact .inr ⟨_, rfl⟩
      | some r => exact .inl ⟨_, _, rfl, .readCr hr hk⟩
  | present image =>
    simp only [hostCommand, State.hostPresent]
    split_ifs with hr
    · exact .inr ⟨_, rfl⟩
    · cases hP : Program.ofImage s.W image with
      | none => exact .inr ⟨_, rfl⟩
      | some P =>
        simp only
        split_ifs with hlen
        · exact .inr ⟨_, rfl⟩
        · exact .inl ⟨_, _, rfl, .present hr hP (not_le.1 hlen)⟩
  | attach m =>
    simp only [hostCommand, State.hostAttach]
    split_ifs with hr
    · exact .inr ⟨_, rfl⟩
    · exact .inl ⟨_, _, rfl, .attach hr⟩

theorem performs_of_hostCommand {c : HostCommand} {s t : State} {r : HostReply}
    (h : hostCommand c s = .next (r, t)) : Performs s c r t := by
  rcases hostCommand_cases c s with ⟨r', t', e, hp⟩ | ⟨q, e⟩
  · cases e.symm.trans h
    exact hp
  · cases e.symm.trans h

theorem Performs.hostCommand_eq {c : HostCommand} {s t : State} {r : HostReply} (h : Performs s c r t) :
    hostCommand c s = .next (r, t) := by
  cases h with
  | construct => rfl
  | run hr ha hipr hip => simp [hostCommand, State.hostRun, hr, ha, hipr, hip]
  | readReg hr hi => simp [hostCommand, State.hostReadReg, hr, hi]
  | writeReg hr ha hi hv => simp [hostCommand, State.hostWriteReg, hr, ha, hi, hv]
  | readCr hr hk => simp [hostCommand, State.hostReadCr, hr, hk]
  | present hr hP hlen => simp [hostCommand, State.hostPresent, hr, hP, hlen]
  | attach hr => simp [hostCommand, State.hostAttach, hr]

/-- A command the machine does not perform is refused. -/
theorem hostCommand_refused {c : HostCommand} {s : State} (h : ∀ r t, ¬ Performs s c r t) :
    ∃ q, hostCommand c s = .refused q := by
  rcases hostCommand_cases c s with ⟨r, t, -, hp⟩ | hq
  · exact absurd hp (h r t)
  · exact hq

/-- Every port but that of `construct` asks for RUNNING first (10_state.md R22). -/
theorem hostCommand_of_running {c : HostCommand} {s : State} (hs : s.status = .running) (hc : c ≠ .construct) :
    hostCommand c s = .refused .whileRunning := by
  cases c with
  | construct => exact absurd rfl hc
  | run | readReg | writeReg | readCr | present | attach => exact if_pos hs

/-- Starting a run keeps the invariant, from ABORTED too: `cause` and `fval` are cleared. -/
theorem State.Ok.startRun {s : State} (h : s.Ok) {r p : Int} (hr : inRange s.W r) (hp : inRange s.W p) :
    (s.startRun r p).Ok where
  legal := h.legal
  bank := h.bank
  ip := hp
  ipr := hr
  fval := inRange_zero s.W
  steps := Nat.two_pow_pos s.SW
  cause := iff_of_true rfl nofun
  fvalZero _ := rfl
  program := h.program

/-- Another program of legal length keeps the invariant, if it is an image. -/
theorem State.Ok.withProgram {s : State} (h : s.Ok) {P : Program} (hP : P.Ok s.W) (hlen : P.len < 2 ^ (s.W - 1)) :
    State.Ok { s with program := P } where
  legal := by
    obtain ⟨hW, hSW, hN, hNW, -⟩ := h.legal
    exact ⟨hW, hSW, hN, hNW, hlen⟩
  bank := h.bank
  ip := h.ip
  ipr := h.ipr
  fval := h.fval
  steps := h.steps
  cause := h.cause
  fvalZero := h.fvalZero
  program := hP

theorem State.Ok.withMonitor {s : State} (h : s.Ok) (m : Monitor) : State.Ok { s with monitor := m } where
  legal := h.legal
  bank := h.bank
  ip := h.ip
  ipr := h.ipr
  fval := h.fval
  steps := h.steps
  cause := h.cause
  fvalZero := h.fvalZero
  program := h.program

/-- Each command keeps the invariant: what a port carries in is checked there. -/
theorem Performs.ok {c : HostCommand} {s t : State} {r : HostReply} (h : Performs s c r t) (hok : s.Ok) : t.Ok := by
  cases h with
  | construct => exact State.construct_ok hok.legal hok.program
  | run _ _ hipr hip => exact hok.startRun hipr hip
  | readReg | readCr => exact hok
  | writeReg _ _ _ hv => exact hok.setReg _ hv
  | present _ hP hlen => exact hok.withProgram (Program.ok_of_ofImage hP) hlen
  | attach => exact hok.withMonitor _

/-- No instruction writes the step counter: it writes one register, or aborts (44_run_loop.md R112). -/
theorem exec_steps {i : Instr} {s t : State} (h : exec i s = .next t) : t.steps = s.steps := by
  cases hbad : i.firstBad s.N with
  | none =>
    cases (exec_of_wellFormed (Instr.firstBad_eq_none_iff.1 hbad)).symm.trans h
    rfl
  | some bad =>
    cases (exec_of_firstBad hbad).symm.trans h
    rfl

/-- The step counter goes up with each completed step of a running machine, and with no other transition. -/
theorem Transition.steps_eq {s t : State} (h : Transition s t) (hs : s.status = .running) :
    t.steps = if t.status = .running then (s.steps + 1) % 2 ^ s.SW else s.steps := by
  cases h with
  | hold idle => exact absurd hs idle
  | halt | badIpr | stop | illFormed => rfl
  | complete => simp [hs]

end Sys2Proof.Machine
end

section
/-! The statements of 10_state.md. -/

namespace Sys2Proof.Machine

/-- Settles O39: the machine performs seven kinds of command, and each keeps the invariant. -/
theorem hostCommandsKeepTheInvariant : Obligations.HostCommandsKeepTheInvariant :=
  fun _ _ _ _ hok h => (performs_of_hostCommand h).ok hok

/-- Settles O17: an accepted `run` clears `steps`, a completed step counts, and no instruction writes it. -/
theorem stepCounterCountsCompletedSteps : Obligations.StepCounterCountsCompletedSteps := by
  refine ⟨fun s t r p q h => ?_, fun s t hs h => (transition_of_step h).steps_eq hs, fun i s t => exec_steps⟩
  cases performs_of_hostCommand h with
  | run => rfl

/-- Settles O8: `construct` is performed in every status, and power-on is what it leaves. -/
theorem constructLeavesTheResetValues : Obligations.ConstructLeavesTheResetValues :=
  ⟨rfl, fun s => ⟨s.construct, Performs.construct.hostCommand_eq, s.construct_N, fun r _ => s.construct_reg r,
    rfl, rfl, rfl, rfl, rfl, rfl, rfl, rfl, rfl, rfl⟩⟩

/-- Settles O50: RUNNING is the first thing every port but that of `construct` refuses. -/
theorem runningRefusesTheHost : Obligations.RunningRefusesTheHost :=
  fun _ _ => hostCommand_of_running

/-- Settles O47: a legal access is performed; an access to no register is not performed in any status. -/
theorem hostRegisterAccess : Obligations.HostRegisterAccess := by
  intro s i v
  refine ⟨fun hr hi => (Performs.readReg hr hi).hostCommand_eq, fun hr ha hi hv => ?_, fun hs => ?_, fun hs => ?_,
    fun hi => ?_⟩
  · exact ⟨_, (Performs.writeReg hr ha hi hv).hostCommand_eq, State.setReg_sameButReg hi v, State.reg_setReg_same s hi v⟩
  · exact ⟨hostCommand_of_running hs nofun, hostCommand_of_running hs nofun⟩
  · simp [hostCommand, State.hostWriteReg, hs]
  · obtain ⟨q, hq⟩ : ∃ q, hostCommand (.readReg i) s = .refused q :=
      hostCommand_refused fun _ _ h => by cases h with | readReg _ register => exact hi register
    obtain ⟨q', hq'⟩ : ∃ q', hostCommand (.writeReg i v) s = .refused q' :=
      hostCommand_refused fun _ _ h => by cases h with | writeReg _ _ register => exact hi register
    exact ⟨q, q', hq, hq'⟩

/-- Settles O53: each of the seven numbers names one content; any other is refused. -/
theorem controlRegistersRead : Obligations.ControlRegistersRead := by
  intro s hs
  have read {k : Nat} {r : HostReply} (hk : s.controlRegister k = some r) : hostCommand (.readCr k) s = .next (r, s) :=
    (Performs.readCr hs hk).hostCommand_eq
  refine ⟨read rfl, read rfl, read rfl, read rfl, read rfl, read rfl, read rfl, fun k hk => ?_⟩
  have absent : s.controlRegister k = none := by
    obtain ⟨n, rfl⟩ := Nat.exists_eq_add_of_le' hk
    rfl
  simp [hostCommand, State.hostReadCr, hs, absent]

end Sys2Proof.Machine
end

section
/-! SUPPORT. The packed word and the bytes of an image carry exactly the records of `W`-bit operands: both round trips of
30_encoding.md R47 and R55, and where the words of an image stand (20_memory.md R34, R59). -/

namespace Sys2Proof

/-- Each of the sixteen numbers is the number of the record it makes (R48, R56). -/
@[simp] theorem Instr.opNumber_ofFields (op : BitVec 4) (a b c : Int) : (Instr.ofFields op a b c).opNumber = op := by
  obtain ⟨⟨n, hn⟩⟩ := op
  interval_cases n <;> rfl

@[simp] theorem Instr.ofFields_opNumber (i : Instr) : Instr.ofFields i.opNumber i.a i.b i.c = i := by
  cases i <;> rfl

/-- Unpacking a packed record: each field is read from where it was put. -/
theorem decodeWord_encodeWord {W : Nat} (hW : 1 ≤ W) {i : Instr} (hi : i.fits W) :
    decodeWord W (encodeWord W i) = i := by
  obtain ⟨ha, hb, hc⟩ := hi
  have op_field : (encodeWord W i).extractLsb' 0 4 = i.opNumber := by
    rw [encodeWord, BitVec.extractLsb'_append_eq_of_add_le (by omega),
      BitVec.extractLsb'_append_eq_of_add_le (by omega), BitVec.extractLsb'_append_eq_right]
  have c_field : (encodeWord W i).extractLsb' 4 W = bits W i.c := by
    rw [encodeWord, BitVec.extractLsb'_append_eq_of_add_le (by omega),
      BitVec.extractLsb'_append_eq_of_add_le (by omega), BitVec.extractLsb'_append_eq_left]
  have b_field : (encodeWord W i).extractLsb' (W + 4) W = bits W i.b := by
    rw [encodeWord, BitVec.extractLsb'_append_eq_of_add_le (by omega), BitVec.extractLsb'_append_eq_left]
  have a_field : (encodeWord W i).extractLsb' (W + (W + 4)) W = bits W i.a := BitVec.extractLsb'_append_eq_left
  rw [decodeWord, op_field, c_field, b_field, a_field, signed_bits hW ha, signed_bits hW hb, signed_bits hW hc,
    Instr.ofFields_opNumber]

/-- Packing an unpacked word: its four fields, side by side, are the whole word. -/
theorem encodeWord_decodeWord (W : Nat) (w : BitVec (wordBits W)) : encodeWord W (decodeWord W w) = w := by
  simp only [encodeWord, decodeWord, Instr.ofFields_a, Instr.ofFields_b, Instr.ofFields_c, Instr.opNumber_ofFields,
    bits_signed]
  rw [BitVec.extractLsb'_append_extractLsb'_eq_extractLsb' (by omega),
    BitVec.extractLsb'_append_extractLsb'_eq_extractLsb' (by omega),
    BitVec.extractLsb'_append_extractLsb'_eq_extractLsb' (by omega), BitVec.extractLsb'_eq_self]

@[simp] theorem length_encode (W : Nat) (i : Instr) : (encode W i).length = wordBytes W := length_bytesOf _ _

/-- The bytes of a record spell its word: the word fits them. -/
@[simp] theorem numberOf_encode (W : Nat) (i : Instr) : numberOf (encode W i) = (encodeWord W i).toNat := by
  rw [encode, numberOf_bytesOf, Nat.mod_eq_of_lt ((encodeWord W i).isLt.trans_le (two_pow_wordBits_le W))]

/-- The record of a word's bytes with zero padding has those bytes. -/
theorem encode_decodeWord_numberOf {W : Nat} {bytes : List Byte} (hlen : bytes.length = wordBytes W)
    (hpad : numberOf bytes < 2 ^ wordBits W) :
    encode W (decodeWord W (BitVec.ofNat (wordBits W) (numberOf bytes))) = bytes := by
  rw [encode, encodeWord_decodeWord, BitVec.toNat_ofNat, Nat.mod_eq_of_lt hpad, ← hlen, bytesOf_numberOf]

/-- The word that a record's bytes spell is unpacked to the record. -/
theorem decodeWord_numberOf_encode {W : Nat} (hW : 1 ≤ W) {i : Instr} (hi : i.fits W) :
    decodeWord W (BitVec.ofNat (wordBits W) (numberOf (encode W i))) = i := by
  rw [numberOf_encode, BitVec.ofNat_toNat, BitVec.setWidth_eq, decodeWord_encodeWord hW hi]

theorem decode_encode_append {W : Nat} (hW : 1 ≤ W) {i : Instr} (hi : i.fits W) (rest : List Byte) :
    decode W (encode W i ++ rest) = .ok (i, rest) := by
  have first : (encode W i ++ rest).take (wordBytes W) = encode W i := List.take_left' (length_encode W i)
  refine decode_eq_ok_iff.2 ⟨by simp, ?_, ?_, List.drop_left' (length_encode W i)⟩
  · rw [first, numberOf_encode]
    exact (encodeWord W i).isLt
  · rw [first, decodeWord_numberOf_encode hW hi]

theorem fits_and_eq_encode_append_of_decode {W : Nat} {bytes rest : List Byte} {i : Instr}
    (h : decode W bytes = .ok (i, rest)) : i.fits W ∧ bytes = encode W i ++ rest := by
  obtain ⟨hlen, hpad, rfl, rfl⟩ := decode_eq_ok_iff.1 h
  refine ⟨decodeWord_fits W _, ?_⟩
  rw [encode_decodeWord_numberOf (List.length_take_of_le hlen) hpad, List.take_append_drop]

theorem length_encodeProgram (W : Nat) (P : List Instr) :
    (encodeProgram W P).length = P.length * wordBytes W := by
  induction P with
  | nil => simp [encodeProgram]
  | cons i P ih =>
    rw [encodeProgram, List.length_append, length_encode, ih, List.length_cons, Nat.succ_mul, Nat.add_comm]

/-- The words of an image stand one after the other, from its start (R59). -/
theorem word_encodeProgram (W : Nat) (P : List Instr) (p : Nat) (hp : p < P.length) :
    ((encodeProgram W P).drop (p * wordBytes W)).take (wordBytes W) = encode W P[p] := by
  induction P generalizing p with
  | nil => exact absurd hp (Nat.not_lt_zero p)
  | cons i P ih =>
    cases p with
    | zero => simp [encodeProgram, List.take_left' (length_encode W i)]
    | succ p =>
      rw [encodeProgram, Nat.succ_mul, Nat.add_comm, ← List.drop_drop, List.drop_left' (length_encode W i)]
      exact ih p (Nat.lt_of_succ_lt_succ hp)

namespace Machine

theorem imageOk_encodeProgram {W : Nat} (hW : 1 ≤ W) {P : List Instr} (hP : ∀ i ∈ P, i.fits W) :
    imageOk W P.length (encodeProgram W P) = true := by
  induction P with
  | nil => rfl
  | cons i P ih =>
    obtain ⟨hi, hP⟩ := List.forall_mem_cons.1 hP
    rw [encodeProgram, List.length_cons, imageOk, decode_encode_append hW hi]
    exact ih hP

/-- The store that the encoding of a list of instructions presents. -/
def Program.ofInstrs (W : Nat) (P : List Instr) : Program where
  len := P.length
  image := Mem.ofBytes 0 (encodeProgram W P)

/-- An encoded list of instructions is accepted as an image. -/
theorem Program.ofImage_encodeProgram {W : Nat} (hW : 1 ≤ W) {P : List Instr} (hP : ∀ i ∈ P, i.fits W) :
    Program.ofImage W (encodeProgram W P) = some (Program.ofInstrs W P) := by
  have hlen : (encodeProgram W P).length / wordBytes W = P.length := by
    rw [length_encodeProgram, Nat.mul_div_cancel _ (wordBytes_pos W)]
  simp [Program.ofImage, Program.ofInstrs, hlen, imageOk_encodeProgram hW hP]

/-- The store of an encoded list holds its records in order. -/
theorem Program.record_ofInstrs {W : Nat} (hW : 1 ≤ W) {P : List Instr} (hP : ∀ i ∈ P, i.fits W) {p : Nat}
    (hp : p < P.length) : (Program.ofInstrs W P).record W p = P[p] := by
  have inside : p * wordBytes W + wordBytes W ≤ (encodeProgram W P).length := by
    rw [length_encodeProgram, ← Nat.succ_mul]
    exact Nat.mul_le_mul_right _ hp
  have stored : Mem.readBytes (Program.ofInstrs W P).image (p * wordBytes W) (wordBytes W) = encode W P[p] :=
    (Mem.readBytes_ofBytes _ _ _ inside).trans (word_encodeProgram W P p hp)
  rw [Program.record, Program.word, stored, decodeWord_numberOf_encode hW (hP _ (List.getElem_mem hp))]

/-- The bytes at a position of a store that is an image are those of the record there (R32, R34). -/
theorem Program.Ok.readBytes_eq_encode_record {W : Nat} {P : Program} (h : P.Ok W) {p : Nat} (hp : p < P.len) :
    Mem.readBytes P.image (p * wordBytes W) (wordBytes W) = encode W (P.record W p) :=
  (encode_decodeWord_numberOf (Mem.length_readBytes ..) (h.padding p hp)).symm

theorem Program.Holds.toNat_lt {P : Program} {p : Int} (h : P.Holds p) : p.toNat < P.len := by
  obtain ⟨h₀, hL⟩ := h
  omega

/-- `Fetch` outside the program. -/
theorem State.fetch_error {s : State} {p : Int} (h : ¬ s.program.Holds p) : s.fetch p = .error (.noSuchPosition p) :=
  if_neg h

end Machine

end Sys2Proof
end

section
/-! The statements of 20_memory.md. -/

namespace Sys2Proof.Machine

/-- Settles O1: the bytes of a record spell its word, and every field is read from where it was packed. -/
theorem encodedInstructionDecodes : Obligations.EncodedInstructionDecodes :=
  fun _ _ rest hW hi => decode_encode_append hW hi rest

/-- Settles O6: the image is accepted word by word, and the store it presents holds the list's records in order. -/
theorem presentedProgramIsFetched : Obligations.PresentedProgramIsFetched := by
  intro s P hs hW hP hlen
  have accepted := Program.ofImage_encodeProgram hW hP
  refine ⟨Program.ofInstrs s.W P, (Performs.present hs accepted hlen).hostCommand_eq, rfl, Program.ok_of_ofImage accepted,
    fun p hp => ?_⟩
  have inside : (Program.ofInstrs s.W P).Holds p := ⟨Int.natCast_nonneg p, Int.ofNat_lt.2 hp⟩
  exact (State.fetch_ok inside).trans (congrArg _ (Program.record_ofInstrs hW hP hp))

/-- Settles O2: what is accepted is a whole word with zero padding, and packing what it unpacks to gives it back. -/
theorem acceptedBytesAreAnEncoding : Obligations.AcceptedBytesAreAnEncoding :=
  fun _ _ _ _ _ => fits_and_eq_encode_append_of_decode

/-- Settles O7: inside the program the record at the position is fetched, and its encoding is the bytes there. -/
theorem fetchedRecordIsTheStoredWord : Obligations.FetchedRecordIsTheStoredWord := by
  intro s p _ hok
  refine ⟨fun hp => ?_, State.fetch_error⟩
  exact ⟨_, State.fetch_ok hp, decodeWord_fits _ _, hok.readBytes_eq_encode_record hp.toNat_lt⟩

end Sys2Proof.Machine
end

section
/-! SUPPORT. The packed word as a number (30_encoding.md R47), and that a step keeps well-formedness (R57). -/

namespace Sys2Proof

/-- The number of two vectors side by side. -/
theorem toNat_append_eq_add {m n : Nat} (x : BitVec m) (y : BitVec n) :
    (x ++ y).toNat = x.toNat * 2 ^ n + y.toNat := by
  rw [BitVec.toNat_append, ← Nat.shiftLeft_add_eq_or_of_lt y.isLt, Nat.shiftLeft_eq]

theorem extractLsb'_eq_ofNat_div {n : Nat} (w : BitVec n) (start len : Nat) :
    w.extractLsb' start len = BitVec.ofNat len (w.toNat / 2 ^ start) := by
  rw [BitVec.extractLsb', Nat.shiftRight_eq_div_pow]

/-- The place of each field in the number of a packed word. -/
theorem toNat_encodeWord (W : Nat) (i : Instr) : (encodeWord W i).toNat =
    (bits W i.a).toNat * 2 ^ (2 * W + 4) + (bits W i.b).toNat * 2 ^ (W + 4) + (bits W i.c).toNat * 2 ^ 4 +
      i.opNumber.toNat := by
  simp only [encodeWord, toNat_append_eq_add]
  rw [show W + (W + 4) = 2 * W + 4 by omega]
  omega

namespace Machine

/-- What a position of the program holds depends on nothing a step writes, nor do `N` and `ipr`. -/
theorem State.WellFormed.of_step {s t : State} (hwf : s.WellFormed) (h : step s = .next t) : t.WellFormed := by
  obtain ⟨hW, -, hN, hipr, hprogram, -⟩ := stepLeavesProgramAndLatchesAlone s t h
  rwa [State.WellFormed, hW, hN, hipr, hprogram]

/-- The record about to be executed stands at a position of the program. -/
theorem State.WellFormed.of_ready {s : State} (hwf : s.WellFormed) {i : Instr} (h : s.Ready i) : i.wellFormed s.N :=
  h.record ▸ hwf.2 _ h.inside.toNat_lt

/-- Neither abort is a transition of a well-formed machine (60_exceptions.md R132). -/
theorem Transition.safe {s t : State} (h : Transition s t) (hwf : s.WellFormed) (hs : s.Safe) : t.Safe := by
  cases h with
  | hold => exact hs
  | halt | stop => exact nofun
  | badIpr _ _ bad => exact absurd hwf.1 bad
  | illFormed ready bad =>
    rw [Instr.firstBad_eq_none_iff.2 (hwf.of_ready ready)] at bad
    cases bad
  | complete => simpa using hs

end Machine

end Sys2Proof
end

section
/-! The statements of 30_encoding.md. -/

namespace Sys2Proof.Machine

/-- Settles O35: no step writes what well-formedness speaks of, and it rules out both aborts. -/
theorem wellFormedRunNeverAborts : Obligations.WellFormedRunNeverAborts :=
  fun _ _ hwf hs h => ⟨hwf.of_step h, (transition_of_step h).safe hwf hs⟩

/-- Settles O3: packing and unpacking are inverse to one another on the records of `W`-bit operands. -/
theorem everyWordDecodesToOneRecord : Obligations.EveryWordDecodesToOneRecord := by
  refine fun W hW => ⟨fun w => ?_, fun i => decodeWord_encodeWord hW⟩
  have fits := decodeWord_fits W w
  have packed := encodeWord_decodeWord W w
  refine ⟨⟨decodeWord W w, ⟨fits, packed⟩, ?_⟩, fits, packed⟩
  rintro i ⟨hi, rfl⟩
  exact (decodeWord_encodeWord hW hi).symm

/-- Settles O4: a field that starts at bit `k` is multiplied by `2^k` into the word, and divided by it to be read. -/
theorem packedWordLayout : Obligations.PackedWordLayout := by
  refine fun W => ⟨by simp only [wordBits]; omega, toNat_encodeWord W, fun w => ?_⟩
  simp only [decodeWord, Instr.opNumber_ofFields, Instr.ofFields_a, Instr.ofFields_b, Instr.ofFields_c,
    extractLsb'_eq_ofNat_div, ← Nat.add_assoc, ← Nat.two_mul, BitVec.toNat_ofNat, pow_zero, Nat.div_one, and_self]

/-- Settles O34: `exec` answers the abort of the first bad operand, or with none the write of register `c`. -/
theorem operandsAreCheckedInOrder : Obligations.OperandsAreCheckedInOrder := by
  intro i s
  cases hbad : i.firstBad s.N with
  | none =>
    have hwf := Instr.firstBad_eq_none_iff.1 hbad
    have hc : isRegister s.N i.c := hwf.2.2
    exact ⟨_, exec_of_wellFormed hwf, State.setReg_sameButReg hc _⟩
  | some bad => exact exec_of_firstBad hbad

/-- Settles O5: the decoder is run on the eleven words. -/
theorem specWordsDecode : Obligations.SpecWordsDecode := by
  unfold Obligations.SpecWordsDecode
  decide

end Sys2Proof.Machine
end

section
/-! SUPPORT. What an instruction answers, form by form (30_encoding.md R49, 60_exceptions.md R135), and the arithmetic of
`wrap` (40_arithmetic.md R65). -/

namespace Sys2Proof.Machine

section Answers

variable {i j : Instr} {s : State}

/-- A bad register operand `a` is found first. -/
theorem exec_of_badA (ha : i.kindA = .register) (hra : ¬ isRegister s.N i.a) :
    exec i s = .next (s.abort .srcARange i.a) :=
  exec_of_firstBad (if_pos ⟨ha, hra⟩)

/-- A bad register operand `b` is found if `a` passed its check. -/
theorem exec_of_badB (ha : i.kindA = .register → isRegister s.N i.a) (hb : i.kindB = .register)
    (hrb : ¬ isRegister s.N i.b) : exec i s = .next (s.abort .srcBRange i.b) :=
  exec_of_firstBad ((if_neg fun h => h.2 (ha h.1)).trans (if_pos ⟨hb, hrb⟩))

/-- A bad destination is found if both sources passed their checks. -/
theorem exec_of_badC (ha : i.kindA = .register → isRegister s.N i.a) (hb : i.kindB = .register → isRegister s.N i.b)
    (hrc : ¬ isRegister s.N i.c) : exec i s = .next (s.abort .dstCRange i.c) :=
  exec_of_firstBad
    (((if_neg fun h => h.2 (ha h.1)).trans (if_neg fun h => h.2 (hb h.1))).trans (if_pos hrc))

/-- A well-formed instruction puts its result in register `c` and leaves everything else alone. -/
theorem exists_exec_sameButReg (h : i.wellFormed s.N) :
    ∃ t, exec i s = .next t ∧ State.SameButReg i.c s t ∧ t.reg i.c = i.result s :=
  have hc : isRegister s.N i.c := h.2.2
  ⟨_, exec_of_wellFormed h, State.setReg_sameButReg hc _, State.reg_setReg_same s hc _⟩

/-- What holds of the result of a well-formed instruction holds of register `c` afterwards. -/
theorem exists_exec_of_result (h : i.wellFormed s.N) {P : Int → Prop} (hP : P (i.result s)) :
    ∃ t, exec i s = .next t ∧ State.SameButReg i.c s t ∧ P (t.reg i.c) := by
  obtain ⟨t, answer, same, value⟩ := exists_exec_sameButReg h
  exact ⟨t, answer, same, value ▸ hP⟩

/-- Two register sources: `a`, `b` and `c` are checked in that order, then the result is written. -/
theorem exec_readA_readB (ha : i.kindA = .register) (hb : i.kindB = .register) {P : Int → Prop} (hP : P (i.result s)) :
    (¬ isRegister s.N i.a → exec i s = .next (s.abort .srcARange i.a)) ∧
    (isRegister s.N i.a → ¬ isRegister s.N i.b → exec i s = .next (s.abort .srcBRange i.b)) ∧
    (isRegister s.N i.a → isRegister s.N i.b → ¬ isRegister s.N i.c → exec i s = .next (s.abort .dstCRange i.c)) ∧
    (isRegister s.N i.a → isRegister s.N i.b → isRegister s.N i.c →
      ∃ t, exec i s = .next t ∧ State.SameButReg i.c s t ∧ P (t.reg i.c)) :=
  ⟨exec_of_badA ha,
    fun hra => exec_of_badB (fun _ => hra) hb,
    fun hra hrb => exec_of_badC (fun _ => hra) fun _ => hrb,
    fun hra hrb hrc => exists_exec_of_result ⟨fun _ => hra, fun _ => hrb, hrc⟩ hP⟩

/-- One register source `a`: `a` and `c` are checked in that order, `b` never, then the result is written. -/
theorem exec_readA (ha : i.kindA = .register) (hb : i.kindB ≠ .register) {P : Int → Prop} (hP : P (i.result s)) :
    (¬ isRegister s.N i.a → exec i s = .next (s.abort .srcARange i.a)) ∧
    (isRegister s.N i.a → ¬ isRegister s.N i.c → exec i s = .next (s.abort .dstCRange i.c)) ∧
    (isRegister s.N i.a → isRegister s.N i.c →
      ∃ t, exec i s = .next t ∧ State.SameButReg i.c s t ∧ P (t.reg i.c)) :=
  ⟨exec_of_badA ha,
    fun hra => exec_of_badC (fun _ => hra) fun h => absurd h hb,
    fun hra hrc => exists_exec_of_result ⟨fun _ => hra, fun h => absurd h hb, hrc⟩ hP⟩

/-- An instruction whose result is what register `c` already holds changes nothing. -/
theorem exec_eq_self (h : i.wellFormed s.N) (hv : i.result s = s.reg i.c) : exec i s = .next s := by
  have hc : isRegister s.N i.c := h.2.2
  rw [exec_of_wellFormed h, hv, State.setReg_self s hc]

/-- Two instructions with one destination and one result answer the same state. -/
theorem exists_exec_eq_exec (hi : i.wellFormed s.N) (hj : j.wellFormed s.N) (hc : i.c = j.c)
    (hv : i.result s = j.result s) : ∃ t, exec i s = .next t ∧ exec j s = .next t :=
  ⟨_, exec_of_wellFormed hi, by rw [exec_of_wellFormed hj, hc, hv]⟩

end Answers

/-- `x` is the one value in range congruent to `v` modulo `2^W` (R65). -/
def IsWrapOf (W : Nat) (v x : Int) : Prop := inRange W x ∧ x ≡ v [ZMOD 2 ^ W]

theorem wrap_isWrapOf (W : Nat) (v : Int) : IsWrapOf W v (wrap W v) := ⟨wrap_inRange W v, wrap_modEq W v⟩

section Wrap

variable (W : Nat) (u v w : Int)

/-! An operand may be wrapped before an add or a multiply that wraps its result. -/

@[simp] theorem wrap_wrap_add : wrap W (wrap W u + v) = wrap W (u + v) := wrap_eq_wrap ((wrap_modEq W u).add_right v)

@[simp] theorem wrap_add_wrap : wrap W (u + wrap W v) = wrap W (u + v) := wrap_eq_wrap ((wrap_modEq W v).add_left u)

@[simp] theorem wrap_wrap_mul : wrap W (wrap W u * v) = wrap W (u * v) := wrap_eq_wrap ((wrap_modEq W u).mul_right v)

@[simp] theorem wrap_mul_wrap : wrap W (u * wrap W v) = wrap W (u * v) := wrap_eq_wrap ((wrap_modEq W v).mul_left u)

theorem aluAdd_comm : aluAdd W u v = aluAdd W v u := congrArg (wrap W) (add_comm u v)

theorem aluMul_comm : aluMul W u v = aluMul W v u := congrArg (wrap W) (mul_comm u v)

theorem aluAdd_assoc : aluAdd W (aluAdd W u v) w = aluAdd W u (aluAdd W v w) := by
  simp only [aluAdd, wrap_wrap_add, wrap_add_wrap, add_assoc]

theorem aluMul_assoc : aluMul W (aluMul W u v) w = aluMul W u (aluMul W v w) := by
  simp only [aluMul, wrap_wrap_mul, wrap_mul_wrap, mul_assoc]

theorem aluMul_aluAdd : aluMul W u (aluAdd W v w) = aluAdd W (aluMul W u v) (aluMul W u w) := by
  simp only [aluMul, aluAdd, wrap_mul_wrap, wrap_wrap_add, wrap_add_wrap, mul_add]

variable {W u}

theorem aluAdd_zero (hW : 1 ≤ W) (hu : inRange W u) : aluAdd W u 0 = u := by
  rw [aluAdd, add_zero, wrap_of_inRange hW hu]

theorem aluMul_one (hW : 1 ≤ W) (hu : inRange W u) : aluMul W u 1 = u := by
  rw [aluMul, mul_one, wrap_of_inRange hW hu]

/-- Adding `k` is undone by adding any value congruent to `-k`. -/
theorem aluAdd_aluAdd_cancel (hW : 1 ≤ W) (hu : inRange W u) {k m : Int} (hm : m ≡ -k [ZMOD 2 ^ W]) :
    aluAdd W (aluAdd W u k) m = u :=
  calc aluAdd W (aluAdd W u k) m = wrap W (u + k + m) := wrap_wrap_add W (u + k) m
    _ = wrap W (u + k + -k) := wrap_eq_wrap (hm.add_left (u + k))
    _ = u := by rw [add_neg_cancel_right, wrap_of_inRange hW hu]

end Wrap

end Sys2Proof.Machine
end

section
/-! The statements of 40_arithmetic.md. -/

namespace Sys2Proof.Machine

/-- Settles O54: the laws of `exec` come from the equations of the add and multiply on wrapped values. -/
theorem arithmeticLaws : Obligations.ArithmeticLaws := by
  refine ⟨?frame, ?identity, ?addComm, ?mulComm,
    fun W u v w => ⟨aluAdd_assoc W u v w, aluMul_assoc W u v w, aluMul_aluAdd W u v w⟩, ?undo⟩
  case frame =>
    intro s i a b c hi hwf
    obtain rfl : i.c = c := by rcases hi with rfl | rfl | rfl | rfl <;> rfl
    obtain ⟨t, answer, same, -⟩ := exists_exec_sameButReg hwf
    exact ⟨t, answer, same⟩
  case identity =>
    intro s c hc hv hW
    exact ⟨exec_eq_self ⟨fun _ => hc, nofun, hc⟩ (aluAdd_zero hW hv),
      exec_eq_self ⟨fun _ => hc, nofun, hc⟩ (aluMul_one hW hv)⟩
  case addComm =>
    intro s a b c ha hb hc
    exact exists_exec_eq_exec ⟨fun _ => ha, fun _ => hb, hc⟩ ⟨fun _ => hb, fun _ => ha, hc⟩ rfl (aluAdd_comm ..)
  case mulComm =>
    intro s a b c ha hb hc
    exact exists_exec_eq_exec ⟨fun _ => ha, fun _ => hb, hc⟩ ⟨fun _ => hb, fun _ => ha, hc⟩ rfl (aluMul_comm ..)
  case undo =>
    intro s a c k m ha hc hv hW hm
    obtain ⟨t, answer, same, value⟩ := exists_exec_sameButReg (i := .addi a k c) ⟨fun _ => ha, nofun, hc⟩
    have hct : isRegister t.N c := same.N ▸ hc
    obtain ⟨u, answer', -, value'⟩ := exists_exec_sameButReg (i := .addi c m c) ⟨fun _ => hct, nofun, hct⟩
    refine ⟨t, u, answer, answer', ?_⟩
    calc u.reg c = aluAdd t.W (t.reg c) m := value'
      _ = aluAdd s.W (aluAdd s.W (s.reg a) k) m := by rw [same.W]; exact congrArg (aluAdd s.W · m) value
      _ = s.reg a := aluAdd_aluAdd_cancel hW hv hm

/-- Settles O18: two register sources and a wrapped sum. -/
theorem addrAddsRegisters : Obligations.AddrAddsRegisters := fun a b c s =>
  ⟨Laws.Fields.low_bits s.W _, exec_readA_readB (i := .addr a b c) rfl rfl (wrap_isWrapOf s.W (s.reg a + s.reg b))⟩

/-- Settles O19: a register source, an immediate and a wrapped sum. -/
theorem addiAddsImmediate : Obligations.AddiAddsImmediate := fun a b c s =>
  ⟨Laws.Fields.low_bits s.W _, exec_readA (i := .addi a b c) rfl nofun (wrap_isWrapOf s.W (s.reg a + b))⟩

/-- Settles O20: two register sources and a wrapped product. -/
theorem mulrMultipliesRegisters : Obligations.MulrMultipliesRegisters := fun a b c s =>
  ⟨Laws.Fields.low_bits s.W _, exec_readA_readB (i := .mulr a b c) rfl rfl (wrap_isWrapOf s.W (s.reg a * s.reg b))⟩

/-- Settles O21: a register source, an immediate and a wrapped product. -/
theorem muliMultipliesByImmediate : Obligations.MuliMultipliesByImmediate := fun a b c s =>
  ⟨Laws.Fields.low_bits s.W _, exec_readA (i := .muli a b c) rfl nofun (wrap_isWrapOf s.W (s.reg a * b))⟩

end Sys2Proof.Machine
end

section
/-! SUPPORT. AND and OR on two's-complement bits (41_bitwise.md R75): which bits the result has, the equations of R80,
and the bounds on values whose sign bit is clear. -/

namespace Sys2Proof

/-- What OR sets is set in one of the summands. -/
theorem lor_le_add (m n : Nat) : m ||| n ≤ m + n := by
  induction m using Nat.strongRecOn generalizing n with
  | ind m ih =>
    rcases Nat.eq_zero_or_pos m with rfl | hm
    · simp
    · have high : (m ||| n) / 2 ≤ m / 2 + n / 2 := Nat.or_div_two ▸ ih (m / 2) (by omega) (n / 2)
      have low : (m ||| n) % 2 = 1 ↔ m % 2 = 1 ∨ n % 2 = 1 := Nat.or_mod_two_eq_one
      omega

theorem and_or_absorb {W : Nat} (x y : BitVec W) : x &&& y ||| x = x := by
  ext k
  simp +contextual

theorem or_and_absorb {W : Nat} (x y : BitVec W) : (x ||| y) &&& x = x := by
  ext k
  simp +contextual

/-- A value in range that is not negative has a clear sign bit. -/
theorem msb_bits_of_nonneg {W : Nat} (hW : 1 ≤ W) {v : Int} (hv : inRange W v) (h : 0 ≤ v) :
    (bits W v).msb = false := by
  have value : (bits W v).toInt = v := signed_bits hW hv
  rw [BitVec.msb_eq_toInt, value, decide_eq_false (not_lt.2 h)]

namespace Machine

/-- `x` is the `W`-bit value whose bit `k` is `bit k` (R75). -/
def HasBits (W : Nat) (bit : Nat → Bool) (x : Int) : Prop :=
  inRange W x ∧ ∀ k < W, (bits W x).getLsbD k = bit k

section Equations

variable (W : Nat) (u v : Int)

theorem aluAnd_hasBits : HasBits W (fun k => (bits W u).getLsbD k && (bits W v).getLsbD k) (aluAnd W u v) :=
  ⟨signed_inRange _, fun k _ => by rw [aluAnd, bits_signed, BitVec.getLsbD_and]⟩

theorem aluOr_hasBits : HasBits W (fun k => (bits W u).getLsbD k || (bits W v).getLsbD k) (aluOr W u v) :=
  ⟨signed_inRange _, fun k _ => by rw [aluOr, bits_signed, BitVec.getLsbD_or]⟩

theorem aluAnd_comm : aluAnd W u v = aluAnd W v u := congrArg signed (BitVec.and_comm ..)

theorem aluOr_comm : aluOr W u v = aluOr W v u := congrArg signed (BitVec.or_comm ..)

variable {W u} (hW : 1 ≤ W) (hu : inRange W u)
include hW hu

theorem aluAnd_neg_one : aluAnd W u (-1) = u := by
  have ones : bits W (-1) = BitVec.allOnes W := BitVec.ofInt_neg.trans BitVec.neg_one_eq_allOnes
  rw [aluAnd, ones, BitVec.and_allOnes, signed_bits hW hu]

theorem aluOr_zero : aluOr W u 0 = u := by
  have zeros : bits W 0 = 0#W := BitVec.ofInt_ofNat W 0
  rw [aluOr, zeros, BitVec.or_zero, signed_bits hW hu]

theorem aluAnd_self : aluAnd W u u = u := by rw [aluAnd, BitVec.and_self, signed_bits hW hu]

theorem aluOr_self : aluOr W u u = u := by rw [aluOr, BitVec.or_self, signed_bits hW hu]

theorem aluOr_aluAnd_self : aluOr W (aluAnd W u v) u = u := by
  rw [aluOr, aluAnd, bits_signed, and_or_absorb, signed_bits hW hu]

theorem aluAnd_aluOr_self : aluAnd W (aluOr W u v) u = u := by
  rw [aluAnd, aluOr, bits_signed, or_and_absorb, signed_bits hW hu]

end Equations

/-- With the sign bits clear, signed values are the numbers the bits spell, and AND and OR of numbers have these bounds. -/
theorem aluAnd_aluOr_bounds {W : Nat} {u v : Int} (hW : 1 ≤ W) (hu : inRange W u) (hv : inRange W v) (hu₀ : 0 ≤ u)
    (hv₀ : 0 ≤ v) :
    0 ≤ aluAnd W u v ∧ aluAnd W u v ≤ min u v ∧ max u v ≤ aluOr W u v ∧ aluOr W u v ≤ u + v := by
  have signU := msb_bits_of_nonneg hW hu hu₀
  have signV := msb_bits_of_nonneg hW hv hv₀
  have valueU : u = (bits W u).toNat := (signed_bits hW hu).symm.trans (BitVec.toInt_eq_toNat_of_msb signU)
  have valueV : v = (bits W v).toNat := (signed_bits hW hv).symm.trans (BitVec.toInt_eq_toNat_of_msb signV)
  have valueAnd : aluAnd W u v = ((bits W u).toNat &&& (bits W v).toNat : Nat) := by
    rw [← BitVec.toNat_and]
    exact BitVec.toInt_eq_toNat_of_msb (by rw [BitVec.msb_and, signU, Bool.false_and])
  have valueOr : aluOr W u v = ((bits W u).toNat ||| (bits W v).toNat : Nat) := by
    rw [← BitVec.toNat_or]
    exact BitVec.toInt_eq_toNat_of_msb (by rw [BitVec.msb_or, signU, signV, Bool.false_or])
  have andLeft := Nat.and_le_left (n := (bits W u).toNat) (m := (bits W v).toNat)
  have andRight := Nat.and_le_right (n := (bits W u).toNat) (m := (bits W v).toNat)
  have orLeft := Nat.left_le_or (n := (bits W u).toNat) (m := (bits W v).toNat)
  have orRight := Nat.right_le_or (n := (bits W u).toNat) (m := (bits W v).toNat)
  have orAdd := lor_le_add (bits W u).toNat (bits W v).toNat
  omega

/-- A well-formed instruction whose result is known writes it to register `c`. -/
theorem exec_of_result {i : Instr} {s : State} (h : i.wellFormed s.N) {v : Int} (hv : i.result s = v) :
    exec i s = .next (s.setReg i.c v) :=
  hv ▸ exec_of_wellFormed h

end Machine

end Sys2Proof
end

section
/-! The statements of 41_bitwise.md. -/

namespace Sys2Proof.Machine

/-- Settles O55: the laws of `exec` come from the equations and bounds of AND and OR on `W`-bit values. -/
theorem bitwiseLaws : Obligations.BitwiseLaws := by
  refine ⟨?frame, ?identity, ?idempotence, ?commutativity, fun W u v hW hu hv =>
    ⟨aluOr_aluAnd_self v hW hu, aluAnd_aluOr_self v hW hu, aluAnd_aluOr_bounds hW hu hv⟩⟩
  case frame =>
    intro s i a b c hi hwf
    obtain rfl : i.c = c := by rcases hi with rfl | rfl | rfl | rfl <;> rfl
    obtain ⟨t, answer, same, -⟩ := exists_exec_sameButReg hwf
    exact ⟨t, answer, same⟩
  case identity =>
    intro s c hc hv hW
    exact ⟨exec_eq_self ⟨fun _ => hc, nofun, hc⟩ (aluAnd_neg_one hW hv),
      exec_eq_self ⟨fun _ => hc, nofun, hc⟩ (aluOr_zero hW hv)⟩
  case idempotence =>
    intro s a c ha hc hv hW
    exact ⟨s.setReg c (s.reg a), exec_of_result ⟨fun _ => ha, fun _ => ha, hc⟩ (aluAnd_self hW hv),
      exec_of_result ⟨fun _ => ha, fun _ => ha, hc⟩ (aluOr_self hW hv), State.reg_setReg_same s hc _,
      State.setReg_sameButReg hc _⟩
  case commutativity =>
    intro s a b c ha hb hc
    exact ⟨exists_exec_eq_exec ⟨fun _ => ha, fun _ => hb, hc⟩ ⟨fun _ => hb, fun _ => ha, hc⟩ rfl (aluAnd_comm ..),
      exists_exec_eq_exec ⟨fun _ => ha, fun _ => hb, hc⟩ ⟨fun _ => hb, fun _ => ha, hc⟩ rfl (aluOr_comm ..)⟩

/-- Settles O22: two register sources and the AND of their bits. -/
theorem banrAndsRegisters : Obligations.BanrAndsRegisters := fun a b c s =>
  ⟨Laws.Fields.low_bits s.W _, exec_readA_readB (i := .banr a b c) rfl rfl (aluAnd_hasBits s.W (s.reg a) (s.reg b))⟩

/-- Settles O23: a register source, an immediate and the AND of their bits. -/
theorem baniAndsImmediate : Obligations.BaniAndsImmediate := fun a b c s =>
  ⟨Laws.Fields.low_bits s.W _, exec_readA (i := .bani a b c) rfl nofun (aluAnd_hasBits s.W (s.reg a) b)⟩

/-- Settles O24: two register sources and the OR of their bits. -/
theorem borrOrsRegisters : Obligations.BorrOrsRegisters := fun a b c s =>
  ⟨Laws.Fields.low_bits s.W _, exec_readA_readB (i := .borr a b c) rfl rfl (aluOr_hasBits s.W (s.reg a) (s.reg b))⟩

/-- Settles O25: a register source, an immediate and the OR of their bits. -/
theorem boriOrsImmediate : Obligations.BoriOrsImmediate := fun a b c s =>
  ⟨Laws.Fields.low_bits s.W _, exec_readA (i := .bori a b c) rfl nofun (aluOr_hasBits s.W (s.reg a) b)⟩

end Sys2Proof.Machine
end

section
/-! SUPPORT. An instruction with no register source (30_encoding.md R49), and what a register operand reads after a write
of that register (10_state.md R13). -/

namespace Sys2Proof.Machine

/-- No register source: only `c` is checked, then the result is written. -/
theorem exec_write {i : Instr} {s : State} (ha : i.kindA ≠ .register) (hb : i.kindB ≠ .register) :
    (¬ isRegister s.N i.c → exec i s = .next (s.abort .dstCRange i.c)) ∧
    (isRegister s.N i.c → ∃ t, exec i s = .next t ∧ State.SameButReg i.c s t ∧ t.reg i.c = i.result s) :=
  ⟨exec_of_badC (fun h => absurd h ha) fun h => absurd h hb,
    fun hc => exists_exec_sameButReg ⟨fun h => absurd h ha, fun h => absurd h hb, hc⟩⟩

section Operand

variable {s t : State} {c : Int} (hc : isRegister s.N c) (same : State.SameButReg c s t) (k : Int → Result)
include hc same

/-- The register an instruction wrote is still one when a later instruction reads it in field `a`. -/
theorem State.SameButReg.regA_eq : t.regA c k = k (t.reg c) := State.regA_ok (same.N ▸ hc) k

/-- The same of field `b`. -/
theorem State.SameButReg.regB_eq : t.regB c k = k (t.reg c) := State.regB_ok (same.N ▸ hc) k

end Operand

end Sys2Proof.Machine
end

section
/-! The statements of 42_set.md. -/

namespace Sys2Proof.Machine

/-- Settles O26: one register source, whose value is the result. -/
theorem setrCopiesRegister : Obligations.SetrCopiesRegister := fun a b c s =>
  ⟨Laws.Fields.low_bits s.W _, exec_readA (i := .setr a b c) (P := (· = s.reg a)) rfl nofun rfl⟩

/-- Settles O27: no register source, and the immediate is the result. -/
theorem setiLoadsImmediate : Obligations.SetiLoadsImmediate := fun a b c s =>
  ⟨Laws.Fields.low_bits s.W _, exec_write (i := .seti a b c) nofun nofun⟩

/-- Settles O56: neither meaning names `b`, and the other laws follow what register `c` holds after the write. -/
theorem setLaws : Obligations.SetLaws := by
  refine ⟨fun s a b b' c => ⟨rfl, rfl⟩, ?load, ?copyBack, ?readBack⟩
  case load =>
    intro s a b c hc
    exact exists_exec_sameButReg (i := .seti a b c) ⟨nofun, nofun, hc⟩
  case copyBack =>
    intro s a b b' c ha hc
    obtain ⟨t, answer, same, value⟩ := exists_exec_sameButReg (i := .setr a b c) ⟨fun _ => ha, nofun, hc⟩
    have hat : isRegister t.N a := same.N ▸ ha
    have hct : isRegister t.N c := same.N ▸ hc
    obtain ⟨u, answer', -, value'⟩ := exists_exec_sameButReg (i := .setr c b' a) ⟨fun _ => hct, nofun, hat⟩
    exact ⟨t, u, answer, same, answer', value'.trans value⟩
  case readBack =>
    intro s v b c hc
    obtain ⟨t, answer, same, value⟩ := exists_exec_sameButReg (i := .seti v b c) ⟨nofun, nofun, hc⟩
    refine ⟨t, answer, fun k => ?_⟩
    have read : k (t.reg c) = k v := congrArg k value
    exact ⟨(same.regA_eq hc k).trans read, (same.regB_eq hc k).trans read⟩

end Sys2Proof.Machine
end

section
/-! SUPPORT. The value of a comparison (43_compare.md R90): which of 0 and 1 it is, and the order of the integers as the
two families show it (R97). An instruction whose one register source is `b` (30_encoding.md R49). -/

namespace Sys2Proof.Machine

section Values

variable (u v : Int)

theorem aluGt_eq_zero_or_one : aluGt u v = 0 ∨ aluGt u v = 1 := (ite_eq_or_eq ..).symm

theorem aluEq_eq_zero_or_one : aluEq u v = 0 ∨ aluEq u v = 1 := (ite_eq_or_eq ..).symm

variable {u v}

theorem aluGt_eq_one_iff : aluGt u v = 1 ↔ v < u := by simp [aluGt]

theorem aluGt_eq_zero_iff : aluGt u v = 0 ↔ u ≤ v := by simp [aluGt]

variable (u v)

theorem aluEq_comm : aluEq u v = aluEq v u := by simp only [aluEq, eq_comm]

theorem aluGt_self : aluGt u u = 0 := aluGt_eq_zero_iff.2 le_rfl

theorem aluEq_self : aluEq u u = 1 := if_pos rfl

/-- The strict order is the converse's negation where the sides differ (90_conflicts.md C3). -/
theorem aluGt_eq_one_iff_swap : aluGt u v = 1 ↔ aluGt v u = 0 ∧ u ≠ v := by
  rw [aluGt_eq_one_iff, aluGt_eq_zero_iff]
  omega

/-- Exactly one of `u > v`, `v > u` and `u = v`. -/
theorem aluGt_trichotomy :
    (aluGt u v = 1 ∧ aluGt v u ≠ 1 ∧ u ≠ v) ∨ (aluGt u v ≠ 1 ∧ aluGt v u = 1 ∧ u ≠ v) ∨
      (aluGt u v ≠ 1 ∧ aluGt v u ≠ 1 ∧ u = v) := by
  simp only [ne_eq, aluGt_eq_one_iff]
  omega

end Values

/-- One register source `b`: `b` and `c` are checked in that order, `a` never, then the result is written. -/
theorem exec_readB {i : Instr} {s : State} (ha : i.kindA ≠ .register) (hb : i.kindB = .register) {P : Int → Prop}
    (hP : P (i.result s)) :
    (¬ isRegister s.N i.b → exec i s = .next (s.abort .srcBRange i.b)) ∧
    (isRegister s.N i.b → ¬ isRegister s.N i.c → exec i s = .next (s.abort .dstCRange i.c)) ∧
    (isRegister s.N i.b → isRegister s.N i.c →
      ∃ t, exec i s = .next t ∧ State.SameButReg i.c s t ∧ P (t.reg i.c)) :=
  ⟨exec_of_badB (fun h => absurd h ha) hb,
    fun hrb => exec_of_badC (fun h => absurd h ha) fun _ => hrb,
    fun hrb hrc => exists_exec_of_result ⟨fun h => absurd h ha, fun _ => hrb, hrc⟩ hP⟩

end Sys2Proof.Machine
end

section
/-! The statements of 43_compare.md. -/

namespace Sys2Proof.Machine

/-- Settles O57: the laws of `exec` come from the values of the two comparisons, whatever the destinations. -/
theorem compareLaws : Obligations.CompareLaws := by
  refine ⟨?frame, ?eqComm, ?trichotomy, ?immediates, ?sameRegister⟩
  case frame =>
    intro s i a b c hi hwf
    obtain ⟨rfl, value⟩ : i.c = c ∧ (i.result s = 0 ∨ i.result s = 1) := by
      rcases hi with rfl | rfl | rfl | rfl | rfl | rfl
      iterate 3 exact ⟨rfl, aluGt_eq_zero_or_one ..⟩
      iterate 3 exact ⟨rfl, aluEq_eq_zero_or_one ..⟩
    exact exists_exec_of_result hwf (P := fun x => x = 0 ∨ x = 1) value
  case eqComm =>
    intro s a b c ha hb hc
    exact exists_exec_eq_exec ⟨fun _ => ha, fun _ => hb, hc⟩ ⟨fun _ => hb, fun _ => ha, hc⟩ rfl (aluEq_comm ..)
  case trichotomy =>
    intro s a b c c' ha hb hc hc'
    obtain ⟨t, answer, -, value : t.reg c = aluGt (s.reg a) (s.reg b)⟩ :=
      exists_exec_sameButReg (i := .gtrr a b c) ⟨fun _ => ha, fun _ => hb, hc⟩
    obtain ⟨u, answer', -, value' : u.reg c' = aluGt (s.reg b) (s.reg a)⟩ :=
      exists_exec_sameButReg (i := .gtrr b a c') ⟨fun _ => hb, fun _ => ha, hc'⟩
    refine ⟨t, u, answer, answer', ?_⟩
    rw [value, value']
    exact ⟨aluGt_trichotomy .., aluGt_eq_one_iff_swap ..⟩
  case immediates =>
    intro s a v c ha hc
    obtain ⟨t, answer, -, value : t.reg c = aluGt (s.reg a) v⟩ :=
      exists_exec_sameButReg (i := .gtri a v c) ⟨fun _ => ha, nofun, hc⟩
    obtain ⟨u, answer', -, value' : u.reg c = aluGt v (s.reg a)⟩ :=
      exists_exec_sameButReg (i := .gtir v a c) ⟨nofun, fun _ => ha, hc⟩
    refine ⟨t, u, answer, answer', ?_⟩
    rw [value, value']
    exact aluGt_eq_one_iff_swap ..
  case sameRegister =>
    intro s a c ha hc
    exact ⟨s.setReg c 0, s.setReg c 1,
      exec_of_result ⟨fun _ => ha, fun _ => ha, hc⟩ (aluGt_self _), State.reg_setReg_same s hc 0,
      exec_of_result ⟨fun _ => ha, fun _ => ha, hc⟩ (aluEq_self _), State.reg_setReg_same s hc 1⟩

/-- Settles O28: two register sources and the strict order. -/
theorem gtrrComparesRegisters : Obligations.GtrrComparesRegisters := fun a b c s =>
  ⟨Laws.Fields.low_bits s.W _,
    exec_readA_readB (i := .gtrr a b c) (P := (· = aluGt (s.reg a) (s.reg b))) rfl rfl rfl⟩

/-- Settles O29: a register source on the left, an immediate on the right, and the strict order. -/
theorem gtriComparesWithImmediate : Obligations.GtriComparesWithImmediate := fun a b c s =>
  ⟨Laws.Fields.low_bits s.W _, exec_readA (i := .gtri a b c) (P := (· = aluGt (s.reg a) b)) rfl nofun rfl⟩

/-- Settles O30: an immediate on the left, a register source on the right, and the strict order. -/
theorem gtirComparesImmediate : Obligations.GtirComparesImmediate := fun a b c s =>
  ⟨Laws.Fields.low_bits s.W _, exec_readB (i := .gtir a b c) (P := (· = aluGt a (s.reg b))) nofun rfl rfl⟩

/-- Settles O31: two register sources and equality. -/
theorem eqrrComparesRegisters : Obligations.EqrrComparesRegisters := fun a b c s =>
  ⟨Laws.Fields.low_bits s.W _,
    exec_readA_readB (i := .eqrr a b c) (P := (· = aluEq (s.reg a) (s.reg b))) rfl rfl rfl⟩

/-- Settles O32: a register source on the left, an immediate on the right, and equality. -/
theorem eqriComparesWithImmediate : Obligations.EqriComparesWithImmediate := fun a b c s =>
  ⟨Laws.Fields.low_bits s.W _, exec_readA (i := .eqri a b c) (P := (· = aluEq (s.reg a) b)) rfl nofun rfl⟩

/-- Settles O33: an immediate on the left, a register source on the right, and equality. -/
theorem eqirComparesImmediate : Obligations.EqirComparesImmediate := fun a b c s =>
  ⟨Laws.Fields.low_bits s.W _, exec_readB (i := .eqir a b c) (P := (· = aluEq a (s.reg b))) nofun rfl rfl⟩

end Sys2Proof.Machine
end

section
/-! SUPPORT. Each transition is the step, and what each status says of `ip` and `x[ipr]` (44_run_loop.md R106, R111, R113,
60_exceptions.md R134). -/

namespace Sys2Proof.Machine

/-- A transition is what the step does: at most one is possible from each state. -/
theorem Transition.step_eq {s t : State} (h : Transition s t) : step s = .next t := by
  cases h with
  | hold idle => exact step_of_not_running idle
  | halt running outside => exact (step_of_running running).trans (State.iterate_halt outside)
  | badIpr running inside bad => exact (step_of_running running).trans (State.iterate_badIpr inside bad)
  | stop running inside ipr answer => exact (step_of_running running).trans (State.iterate_stop running inside ipr answer)
  | illFormed ready bad => exact ready.step_of_firstBad bad
  | complete ready wf => exact ready.step_of_wellFormed wf

/-- A run goes on or ends in one of the three ways of R120. -/
theorem Transition.status_of_running {s t : State} (h : Transition s t) (hs : s.status = .running) :
    t.status = .running ∨ t.status = .halted ∨ t.status = .stopped ∨ t.status = .aborted := by
  cases h with
  | hold idle => exact absurd hs idle
  | halt => exact .inr (.inl rfl)
  | stop => exact .inr (.inr (.inl rfl))
  | badIpr | illFormed => exact .inr (.inr (.inr rfl))
  | complete => exact .inl hs

section RunShape
/-! `State.RunShape`, status by status. -/

variable {s : State}

theorem State.runShape_of_running (hs : s.status = .running) :
    s.RunShape ↔ (s.steps ≠ 0 → isRegister s.N s.ipr ∧ s.ip = wrap s.W (s.reg s.ipr + 1)) := by
  rw [State.RunShape, hs]

theorem State.runShape_of_halted (hs : s.status = .halted) :
    s.RunShape ↔ ¬ s.program.Holds s.ip ∧
      (s.steps ≠ 0 → isRegister s.N s.ipr ∧ s.ip = wrap s.W (s.reg s.ipr + 1)) := by
  rw [State.RunShape, hs]

theorem State.runShape_of_stopped (hs : s.status = .stopped) :
    s.RunShape ↔ s.program.Holds s.ip ∧ isRegister s.N s.ipr ∧ s.reg s.ipr = s.ip := by
  rw [State.RunShape, hs]

theorem State.runShape_of_aborted (hs : s.status = .aborted) :
    s.RunShape ↔ s.program.Holds s.ip ∧ ¬ isRegister s.N s.fval ∧ (s.cause = .iprRange → s.fval = s.ipr) ∧
      (s.cause ≠ .iprRange → isRegister s.N s.ipr ∧ s.reg s.ipr = s.ip) := by
  rw [State.RunShape, hs]

end RunShape

/-- Each transition leads to the shape of the status it ends in; the halt needs the shape of RUNNING. -/
theorem Transition.runShape {s t : State} (h : Transition s t) (shape : s.RunShape) : t.RunShape := by
  cases h with
  | hold => exact shape
  | halt running outside =>
    exact (State.runShape_of_halted rfl).2 ⟨outside, (State.runShape_of_running running).1 shape⟩
  | badIpr _ inside bad =>
    exact (State.runShape_of_aborted rfl).2 ⟨inside, bad, fun _ => rfl, fun h => absurd rfl h⟩
  | stop _ inside ipr =>
    refine (State.runShape_of_stopped rfl).2 ⟨inside, ?_, State.reg_setReg_same s ipr s.ip⟩
    simpa using ipr
  | illFormed ready bad =>
    obtain ⟨-, code, notRegister, -⟩ := Instr.firstBad_some bad
    refine (State.runShape_of_aborted rfl).2 ⟨ready.inside, ?_, fun h => absurd h code, fun _ => ⟨?_, ?_⟩⟩
    · simpa using notRegister
    · simpa using ready.ipr
    · exact State.reg_setReg_same s ready.ipr s.ip
  | complete ready =>
    refine (State.runShape_of_running (by exact ready.running)).2 fun _ => ⟨?_, rfl⟩
    simpa using ready.ipr

end Sys2Proof.Machine
end

section
/-! SUPPORT. The two fields that only a stop predicate reads (44_run_loop.md R113, 60_exceptions.md R142), runs that differ in
nothing else, and a stopped run started again (R114). -/

namespace Sys2Proof

open Machine

/-- The result of an instruction depends on the bank and the width only (R109). -/
theorem Instr.result_congr (i : Instr) {s t : State} (hb : s.bank = t.bank) (hW : s.W = t.W) :
    i.result s = i.result t := by
  have reg : s.reg = t.reg := by
    funext r
    rw [State.reg, State.reg, hb]
  cases i <;> simp only [Instr.result, reg, hW]

namespace Machine

/-- `s` with another monitor and another step counter: the two fields that only a stop predicate reads. -/
def State.observed (s : State) (m : Monitor) (n : Nat) : State := { s with monitor := m, steps := n }

/-- The predicate answers false on the triple of this step. -/
abbrev State.Silent (s : State) : Prop := (s.setReg s.ipr s.ip).shouldStop = false

/-- What the counter is after a transition to `t`, when it was `n` before: one more if the step completed (R112). -/
def State.count (t : State) (n : Nat) : Nat := if t.status = .running then (n + 1) % 2 ^ t.SW else n

/-- Where neither predicate stops the step, monitor and counter do not steer it. -/
theorem Transition.observed {s t : State} (h : Transition s t) (silent : s.Silent) {m : Monitor} {n : Nat}
    (silent' : (s.observed m n).Silent) : Transition (s.observed m n) (t.observed m (t.count n)) := by
  have ready' {i : Instr} (ready : s.Ready i) : (s.observed m n).Ready i :=
    ⟨ready.running, ready.inside, ready.ipr, silent', ready.record⟩
  cases h with
  | hold idle =>
    rw [State.count, if_neg idle]
    exact .hold idle
  | halt running outside => exact .halt (s := s.observed m n) running outside
  | badIpr running inside bad => exact .badIpr (s := s.observed m n) running inside bad
  | stop _ _ _ answer => exact absurd (silent.symm.trans answer) nofun
  | illFormed ready bad => exact .illFormed (ready' ready) bad
  | @complete i ready wf =>
    have result : i.result (s.setReg s.ipr s.ip) = i.result ((s.observed m n).setReg s.ipr s.ip) := i.result_congr rfl rfl
    rw [State.count, if_pos (by exact ready.running), result]
    exact .complete (ready' ready) wf

/-- Step (a) done beforehand is not seen by a step that does it again (R108). -/
theorem step_setReg_ip {s : State} (running : s.status = .running) (inside : s.program.Holds s.ip)
    (ipr : isRegister s.N s.ipr) : step (s.setReg s.ipr s.ip) = step s := by
  have ipr' : isRegister (s.setReg s.ipr s.ip).N s.ipr := by simpa using ipr
  have stepA : (s.setReg s.ipr s.ip).stepA = s.stepA := by
    simp [State.stepA, State.writeReg_ok ipr, State.writeReg_ok ipr']
  have inside' : (s.setReg s.ipr s.ip).program.Holds (s.setReg s.ipr s.ip).ip := inside
  rw [step_of_running running, step_of_running (by exact running), State.iterate, State.iterate,
    if_neg (not_not.2 inside), if_neg (not_not.2 inside'), stepA]

/-- The state in which the predicate stops a run (R113). -/
def State.stopped (s : State) : State := (s.setReg s.ipr s.ip).endRun .stopped

/-- A stopped run that is started again where it stopped, its monitor detached, is back where it was, but for step (a),
which is done, and the counter (R105, R114). -/
theorem State.Ok.stopped_startRun {s : State} (h : s.Ok) (running : s.status = .running) :
    State.startRun { s.stopped with monitor := .absent } s.ipr s.ip = (s.observed .absent 0).setReg s.ipr s.ip := by
  have notAborted : s.status ≠ .aborted := by simp [running]
  simp [State.startRun, State.stopped, State.endRun, State.setReg, State.observed, running, h.cause.2 notAborted,
    h.fvalZero notAborted]

/-- Runs that begin with the same step are the same from there. -/
theorem run_succ_congr (k : Nat) {s t : State} (h : step s = step t) :
    Host.Core.run core (k + 1) s = Host.Core.run core (k + 1) t := by
  obtain ⟨u, e, -⟩ := exists_transition t
  rw [run_succ k e, run_succ k (h.trans e)]

/-- No run of a well-formed program ends ABORTED (60_exceptions.md R132, R147). -/
theorem State.WellFormed.run_safe {s t : State} (hwf : s.WellFormed) (hs : s.Safe) {k : Nat}
    (h : Host.Core.run core k s = .next t) : t.Safe := by
  have keep (s : State) : s.WellFormed ∧ s.Safe → ∃ t, step s = .next t ∧ t.WellFormed ∧ t.Safe := by
    rintro ⟨hwf, hs⟩
    obtain ⟨t, e, h⟩ := exists_transition s
    exact ⟨t, e, hwf.of_step e, h.safe hwf hs⟩
  obtain ⟨u, e, -, safe⟩ := run_keeps keep k ⟨hwf, hs⟩
  cases h.symm.trans e
  exact safe

/-- Counters that are `d` apart modulo `2^SW` stay so. -/
theorem State.count_apart (t : State) {a b d : Nat} (h : a = (d + b) % 2 ^ t.SW) :
    t.count a = (d + t.count b) % 2 ^ t.SW := by
  unfold State.count
  split
  · rw [h, Nat.mod_add_mod, Nat.add_mod_mod, add_assoc]
  · exact h

/-- With no monitor two runs that differ in the counter only answer alike, and the counters stay as far apart
(60_exceptions.md R142). -/
theorem run_observed (k : Nat) (s : State) (a b : Nat) :
    ∃ (w : State) (a' b' : Nat), Host.Core.run core k (s.observed .absent a) = .next (w.observed .absent a') ∧
      Host.Core.run core k (s.observed .absent b) = .next (w.observed .absent b') ∧
      ∀ d, a = (d + b) % 2 ^ s.SW → a' = (d + b') % 2 ^ s.SW := by
  induction k generalizing s a b with
  | zero => exact ⟨s, a, b, rfl, rfl, fun _ => id⟩
  | succ k ih =>
    obtain ⟨t, e, h⟩ := exists_transition (s.observed .absent 0)
    have next (n : Nat) : step (s.observed .absent n) = .next (t.observed .absent (t.count n)) :=
      (h.observed rfl (m := .absent) (n := n) rfl).step_eq
    have hSW : t.SW = s.SW := (stepLeavesProgramAndLatchesAlone _ t e).2.1
    obtain ⟨w, a', b', ea, eb, apart⟩ := ih t (t.count a) (t.count b)
    rw [hSW] at apart
    exact ⟨w, a', b', (run_succ k (next a)).trans ea, (run_succ k (next b)).trans eb,
      fun d hd => apart d (hSW ▸ t.count_apart (hSW.symm ▸ hd))⟩

end Machine

end Sys2Proof
end

section
/-! SUPPORT. The value a completed step leaves in `x[ipr]`, and the position it makes the run go on at (44_run_loop.md R110,
R111, R117). -/

namespace Sys2Proof

theorem intMin_neg (W : Nat) : intMin W < 0 := by
  have pos : (0 : Int) < 2 ^ (W - 1) := by positivity
  simp only [intMin]
  omega

/-- One past a value in range is in range too, unless the value is `INT_MAX`: then it wraps to `INT_MIN`. -/
theorem wrap_succ_cases {W : Nat} (hW : 1 ≤ W) {v : Int} (hv : inRange W v) :
    wrap W (v + 1) = v + 1 ∨ v = intMax W ∧ wrap W (v + 1) = intMin W := by
  have pos : (0 : Int) < 2 ^ (W - 1) := by positivity
  by_cases hmax : v = intMax W
  · have double : (2 : Int) ^ W = 2 * 2 ^ (W - 1) := by rw [← pow_succ', Nat.sub_add_cancel hW]
    have minInRange : inRange W (intMin W) := by
      simp only [inRange, intMin, intMax]
      omega
    have congruent : v + 1 ≡ intMin W [ZMOD 2 ^ W] := by
      refine Int.modEq_iff_dvd.2 ⟨-1, ?_⟩
      simp only [hmax, intMin, intMax]
      omega
    exact .inr ⟨hmax, (wrap_eq_wrap congruent).trans (wrap_of_inRange hW minInRange)⟩
  · refine .inl (wrap_of_inRange hW ?_)
    simp only [inRange, intMin, intMax] at hv hmax ⊢
    omega

namespace Machine

section Next

variable {s : State} (hok : s.Ok)
include hok

theorem State.Ok.one_le_W : 1 ≤ s.W := by
  have := hok.legal.1
  omega

/-- The length of the program is a `W`-bit value (00_scope.md R5). -/
theorem State.Ok.len_le_intMax : (s.program.len : Int) ≤ intMax s.W := by
  obtain ⟨-, -, -, -, hlen⟩ := hok.legal
  have : (s.program.len : Int) < 2 ^ (s.W - 1) := by exact_mod_cast hlen
  simp only [intMax]
  omega

/-- Before the end of the program one past a value is not wrapped. -/
theorem State.Ok.wrap_succ {v : Int} (low : -1 ≤ v) (high : v < s.program.len) : wrap s.W (v + 1) = v + 1 := by
  have hlen := hok.len_le_intMax
  have hmin := intMin_neg s.W
  exact wrap_of_inRange hok.one_le_W ⟨by omega, by omega⟩

/-- The position one past `v` is in the program exactly for `-1 <= v <= L - 2` (R117). -/
theorem State.Ok.holds_wrap_succ_iff {v : Int} (hv : inRange s.W v) :
    s.program.Holds (wrap s.W (v + 1)) ↔ -1 ≤ v ∧ v ≤ (s.program.len : Int) - 2 := by
  have hlen := hok.len_le_intMax
  have hmin := intMin_neg s.W
  rcases wrap_succ_cases hok.one_le_W hv with e | ⟨hmax, e⟩
  all_goals
    simp only [Program.Holds, e]
    omega

/-- Step (c) and (d) on the position itself give the next position (R111). -/
theorem State.Ok.wrap_succ_ip (inside : s.program.Holds s.ip) : wrap s.W (s.ip + 1) = s.ip + 1 := by
  obtain ⟨low, high⟩ := inside
  exact hok.wrap_succ (by omega) high

end Next

section Ready

variable {s : State} {i : Instr} (ready : s.Ready i)
include ready

/-- During the instruction `x[ipr]` is the position of the instruction (R108). -/
theorem State.Ready.reg_ipr : (s.setReg s.ipr s.ip).reg s.ipr = s.ip := State.reg_setReg_same s ready.ipr s.ip

/-- Every other register is as it was. -/
theorem State.Ready.reg_other {r : Int} (hr : isRegister s.N r) (h : r ≠ s.ipr) :
    (s.setReg s.ipr s.ip).reg r = s.reg r := State.reg_setReg_other s ready.ipr hr h s.ip

/-- A completed step leaves the result in register `c`, and goes on one past what is then in `x[ipr]`. -/
theorem State.Ready.exists_step (hwf : i.wellFormed s.N) :
    ∃ t, step s = .next t ∧ t.status = .running ∧ t.ip = wrap s.W (t.reg s.ipr + 1) ∧
      t.reg i.c = i.result (s.setReg s.ipr s.ip) ∧ (i.c ≠ s.ipr → t.reg s.ipr = s.ip) := by
  have hc : isRegister (s.setReg s.ipr s.ip).N i.c := by simpa using hwf.2.2
  have hipr : isRegister (s.setReg s.ipr s.ip).N s.ipr := by simpa using ready.ipr
  exact ⟨_, ready.step_of_wellFormed hwf, ready.running, rfl, State.reg_setReg_same _ hc _, fun h =>
    (State.reg_setReg_other _ hc hipr h.symm _).trans ready.reg_ipr⟩

/-- An instruction that writes `x[ipr]` is a jump to one past its result. -/
theorem State.Ready.goesTo (hwf : i.wellFormed s.N) (hc : i.c = s.ipr) {v : Int}
    (hv : i.result (s.setReg s.ipr s.ip) = v) : s.GoesTo (wrap s.W (v + 1)) := by
  obtain ⟨t, e, running, hip, result, -⟩ := ready.exists_step hwf
  exact ⟨t, e, running, by rw [hip, ← hc, result, hv]⟩

/-- An instruction that does not write `x[ipr]` falls through. -/
theorem State.Ready.fallsThrough (hok : s.Ok) (hwf : i.wellFormed s.N) (hc : i.c ≠ s.ipr) :
    ∃ t, step s = .next t ∧ t.ip = s.ip + 1 ∧ t.reg i.c = i.result (s.setReg s.ipr s.ip) := by
  obtain ⟨t, e, -, hip, result, kept⟩ := ready.exists_step hwf
  exact ⟨t, e, by rw [hip, kept hc, hok.wrap_succ_ip ready.inside], result⟩

end Ready

/-- The record at a position is the one that the bytes there decode to. -/
theorem Program.record_of_decode {W : Nat} {P : Program} {p : Nat} {i : Instr} {rest : List Byte}
    (h : decode W (Mem.readBytes P.image (p * wordBytes W) (wordBytes W)) = .ok (i, rest)) : P.record W p = i := by
  obtain ⟨-, -, record, -⟩ := decode_eq_ok_iff.1 h
  rwa [List.take_of_length_le (by simp)] at record

end Machine

end Sys2Proof
end

section
/-! The statements of 44_run_loop.md. -/

namespace Sys2Proof.Machine

/-- Settles O38: each of the six transitions keeps the shape. -/
theorem stepKeepsTheRunShape : Obligations.StepKeepsTheRunShape :=
  fun _ _ shape h => (transition_of_step h).runShape shape

/-- Settles O15: one of the six transitions is always possible, and none of them leads from RUNNING to IDLE. -/
theorem everyStepAnswersANextState : Obligations.EveryStepAnswersANextState := by
  intro s
  obtain ⟨t, e, h⟩ := exists_transition s
  exact ⟨t, e, h.status_of_running⟩

/-- Settles O41: the two states agree on the first bad operand, or on the result and where it is written. -/
theorem execSeesOnlyTheBank : Obligations.ExecSeesOnlyTheBank := by
  intro i s t hb hW
  have hN : s.N = t.N := congrArg List.length hb
  cases hbad : i.firstBad s.N with
  | none =>
    have hs : i.wellFormed s.N := Instr.firstBad_eq_none_iff.1 hbad
    refine .inl ⟨_, exec_of_wellFormed hs, ?_⟩
    rw [exec_of_wellFormed (hN ▸ hs), ← i.result_congr hb hW, State.setReg, ← hb]
  | some bad => exact .inr ⟨bad.1, bad.2, exec_of_firstBad hbad, exec_of_firstBad (hN ▸ hbad)⟩

/-- Settles O43: the transition with no monitor is also the one with a monitor that answers false. -/
theorem silentMonitorIsInvisible : Obligations.SilentMonitorIsInvisible := by
  intro s m silent
  obtain ⟨t, -, h⟩ := exists_transition { s with monitor := .absent }
  have detached := h.observed rfl (m := .absent) (n := s.steps) rfl
  have attached := h.observed rfl (m := m) (n := s.steps) silent
  exact ⟨{ t with steps := t.count s.steps }, detached.step_eq, attached.step_eq⟩

/-- Settles O44: the resumed run repeats step (a), and then is the run with no monitor and another counter. -/
theorem stoppedRunResumes : Obligations.StoppedRunResumes := by
  intro s k hok running inside ipr answer
  have notAborted : s.status ≠ .aborted := by simp [running]
  obtain ⟨w, a, n, whole, resumed, apart⟩ := run_observed (k + 1) s s.steps 0
  have stop : step s = .next s.stopped := (Transition.stop running inside ipr answer).step_eq
  have detach := (Performs.attach (s := s.stopped) (m := .absent) nofun).hostCommand_eq
  have start := (Performs.run (s := { s.stopped with monitor := .absent }) nofun nofun hok.ipr hok.ip).hostCommand_eq
  refine ⟨_, _, _, w.observed .absent a, n, stop, detach, start, whole, ?resume,
    apart s.steps (Nat.mod_eq_of_lt hok.steps).symm, fun hwf => ?safe⟩
  case resume =>
    have first := step_setReg_ip (s := s.observed .absent 0) running inside ipr
    exact (congrArg _ (hok.stopped_startRun running)).trans ((run_succ_congr k first).trans resumed)
  case safe => exact State.WellFormed.run_safe (s := s.observed .absent s.steps) hwf notAborted whole

/-- Settles O45: what is left in `x[ipr]` is a `W`-bit value `v`, and `v + 1` is a position of the program or is not. -/
theorem nextIpIsOnePastTheValueLeft : Obligations.NextIpIsOnePastTheValueLeft := by
  intro s i hok ready hwf
  obtain ⟨t, e, running, hip, -, kept⟩ := ready.exists_step hwf
  obtain ⟨hW, -, hN, -, hprogram, -⟩ := stepLeavesProgramAndLatchesAlone s t e
  have left : inRange s.W (t.reg s.ipr) :=
    hW ▸ (stepKeepsTheInvariant s t hok e).bank _ (t.reg_mem (hN ▸ ready.ipr))
  have position := hok.holds_wrap_succ_iff left
  refine ⟨t, e, running, hip, fun hc => ?through, fun hv => ?goesOn, fun hv => ?halts⟩
  case through => exact ⟨kept hc, by rw [hip, kept hc, hok.wrap_succ_ip ready.inside]⟩
  case goesOn =>
    obtain ⟨low, high⟩ := hv
    exact ⟨hip.trans (hok.wrap_succ low (by omega)), by rw [hprogram, hip]; exact position.2 ⟨low, high⟩⟩
  case halts =>
    refine (Transition.halt running ?_).step_eq
    rw [hprogram, hip]
    exact mt position.1 hv

/-- Settles O46: each idiom that writes `x[ipr]` is a jump to one past its result, and each other falls through. -/
theorem idiomTargets : Obligations.IdiomTargets := by
  intro s hok
  have relative (k : Int) (ready : s.Ready (.addi s.ipr k s.ipr)) : s.GoesTo (wrap s.W (s.ip + k + 1)) := by
    have value : Instr.result (s.setReg s.ipr s.ip) (.addi s.ipr k s.ipr) = wrap s.W (s.ip + k) := by
      rw [Instr.result, ready.reg_ipr, State.setReg_W, aluAdd]
    exact wrap_wrap_add .. ▸ ready.goesTo ⟨fun _ => ready.ipr, nofun, ready.ipr⟩ rfl value
  refine ⟨?noOp, ?absolute, relative, ?self, ?computed, ?indirect, ?compare, ?save, ?copy, ?square⟩
  case noOp =>
    intro b
    have next {i : Instr} (ready : s.Ready i) (hwf : i.wellFormed s.N) (hc : i.c = s.ipr)
        (hv : i.result (s.setReg s.ipr s.ip) = s.ip) : s.GoesTo (s.ip + 1) :=
      hok.wrap_succ_ip ready.inside ▸ ready.goesTo hwf hc hv
    rintro (ready | ready | ready | ready)
    · exact next ready ⟨fun _ => ready.ipr, nofun, ready.ipr⟩ rfl
        (by rw [Instr.result, ready.reg_ipr, State.setReg_W, aluAdd_zero hok.one_le_W hok.ip])
    · exact next ready ⟨fun _ => ready.ipr, nofun, ready.ipr⟩ rfl ready.reg_ipr
    · exact next ready ⟨fun _ => ready.ipr, nofun, ready.ipr⟩ rfl
        (by rw [Instr.result, ready.reg_ipr, State.setReg_W, aluMul_one hok.one_le_W hok.ip])
    · exact next ready ⟨fun _ => ready.ipr, nofun, ready.ipr⟩ rfl
        (by rw [Instr.result, ready.reg_ipr, State.setReg_W, aluOr_zero hok.one_le_W hok.ip])
  case absolute =>
    intro T b ready
    have target := ready.goesTo ⟨nofun, nofun, ready.ipr⟩ rfl (v := T - 1) rfl
    rwa [sub_add_cancel] at target
  case self =>
    intro ready
    have target := relative (-1) ready
    rwa [neg_add_cancel_right, wrap_of_inRange hok.one_le_W hok.ip] at target
  case computed =>
    intro f hf hne h
    have sum : wrap s.W (wrap s.W (s.ip + s.reg f) + 1) = wrap s.W (s.ip + 1 + s.reg f) := by
      rw [wrap_wrap_add, add_right_comm]
    rcases h with ready | ready
    · exact sum ▸ ready.goesTo ⟨fun _ => hf, fun _ => ready.ipr, ready.ipr⟩ rfl
        (by rw [Instr.result, ready.reg_ipr, ready.reg_other hf hne, State.setReg_W, aluAdd_comm, aluAdd])
    · exact sum ▸ ready.goesTo ⟨fun _ => ready.ipr, fun _ => hf, ready.ipr⟩ rfl
        (by rw [Instr.result, ready.reg_ipr, ready.reg_other hf hne, State.setReg_W, aluAdd])
  case indirect =>
    intro r b hr hne ready
    exact ready.goesTo ⟨fun _ => hr, nofun, ready.ipr⟩ rfl (ready.reg_other hr hne)
  case compare =>
    rintro i ⟨a, b, hi⟩ hwf ready
    obtain ⟨hc, value⟩ : i.c = s.ipr ∧
        (i.result (s.setReg s.ipr s.ip) = 0 ∨ i.result (s.setReg s.ipr s.ip) = 1) := by
      rcases hi with rfl | rfl | rfl | rfl | rfl | rfl
      iterate 3 exact ⟨rfl, aluGt_eq_zero_or_one ..⟩
      iterate 3 exact ⟨rfl, aluEq_eq_zero_or_one ..⟩
    refine value.imp (fun zero => ?_) (ready.goesTo hwf hc)
    have target := ready.goesTo hwf hc zero
    rwa [zero_add, wrap_of_inRange hok.one_le_W (inRange_one hok.legal.1)] at target
  case save =>
    intro k r hr hne ready
    obtain ⟨t, e, hip, value⟩ := ready.fallsThrough hok ⟨fun _ => ready.ipr, nofun, hr⟩ hne
    exact ⟨t, e, hip, by rw [← aluAdd, ← ready.reg_ipr]; exact value⟩
  case copy =>
    intro b r hr hne ready
    obtain ⟨t, e, hip, value⟩ := ready.fallsThrough hok ⟨fun _ => ready.ipr, nofun, hr⟩ hne
    exact ⟨t, e, hip, value.trans ready.reg_ipr⟩
  case square =>
    intro ready
    exact wrap_wrap_add .. ▸ ready.goesTo ⟨fun _ => ready.ipr, fun _ => ready.ipr, ready.ipr⟩ rfl
      (by rw [Instr.result, ready.reg_ipr, State.setReg_W, aluMul])

/-- Settles O10: the halt is the first transition an iteration may take. -/
theorem leavingTheProgramHalts : Obligations.LeavingTheProgramHalts :=
  fun _ running outside => (Transition.halt running outside).step_eq

/-- Settles O11: the abort of step (a) is a transition. -/
theorem badInstructionPointerRegisterAborts : Obligations.BadInstructionPointerRegisterAborts :=
  fun _ running inside bad => (Transition.badIpr running inside bad).step_eq

/-- Settles O12: the stop is a transition to the bank that step (a) left. -/
theorem predicateStopsBeforeTheInstruction : Obligations.PredicateStopsBeforeTheInstruction :=
  fun s running inside ipr answer => ⟨s.setReg s.ipr s.ip, (Transition.stop running inside ipr answer).step_eq,
    State.setReg_sameButReg ipr s.ip, State.reg_setReg_same s ipr s.ip⟩

/-- Settles O13: the bytes at `ip` decode to the record that an iteration fetches. -/
theorem stepRunsTheDecodedInstruction : Obligations.StepRunsTheDecodedInstruction := by
  intro s i running inside ipr noStop decoded
  have ready : s.Ready i := ⟨running, inside, ipr, noStop, Program.record_of_decode decoded⟩
  refine ⟨ready.step_eq, fun hwf => ?_⟩
  exact ⟨_, exec_of_wellFormed (by rwa [State.setReg_N]), ready.step_of_wellFormed hwf⟩

/-- Settles O48: `run` is performed in IDLE, HALTED and STOPPED; its port asks for RUNNING, then for ABORTED. -/
theorem runCommandStartsARun : Obligations.RunCommandStartsARun := by
  refine fun s r p => ⟨fun hr ha hipr hip => (Performs.run hr ha hipr hip).hostCommand_eq,
    fun hs => hostCommand_of_running hs nofun, fun hs => ?_⟩
  simp [hostCommand, State.hostRun, hs]

end Sys2Proof.Machine
end

section
/-! SUPPORT. The end of a run: it is held by every later step (60_exceptions.md R136, R146), and a bound on the step counter
reaches it (R145). -/

namespace Sys2Proof.Machine

/-- A machine that is not running holds its state however often it is stepped (R146). -/
theorem run_of_not_running {s : State} (h : s.status ≠ .running) (k : Nat) : Host.Core.run core k s = .next s := by
  have hold (t : State) : t = s → ∃ u, step t = .next u ∧ u = s := by
    rintro rfl
    exact ⟨t, step_of_not_running h, rfl⟩
  obtain ⟨t, e, rfl⟩ := run_keeps hold k rfl
  exact e

/-- Well-formedness of program, `ipr` and `N` is kept over any number of steps. -/
theorem State.WellFormed.exists_run {s : State} (hwf : s.WellFormed) (k : Nat) :
    ∃ t, Host.Core.run core k s = .next t ∧ t.WellFormed := by
  have keep (s : State) (hwf : s.WellFormed) : ∃ t, step s = .next t ∧ t.WellFormed := by
    obtain ⟨t, e, -⟩ := exists_transition s
    exact ⟨t, e, hwf.of_step e⟩
  exact run_keeps keep k hwf

/-- A machine whose run has ended in one of the three ways of R120 is not running. -/
theorem State.not_running_of_ended {s : State}
    (ended : s.status = .halted ∨ s.status = .stopped ∨ s.status = .aborted) : s.status ≠ .running := by
  rcases ended with ended | ended | ended <;> simp [ended]

/-- A run goes on only past a predicate that answered false (44_run_loop.md R113). -/
theorem Transition.silent_of_goes_on {s t : State} (h : Transition s t) (running : s.status = .running)
    (goesOn : t.status = .running) : s.Silent := by
  cases h with
  | hold idle => exact absurd running idle
  | halt | badIpr | stop | illFormed => cases goesOn
  | complete ready => exact ready.noStop

/-- The predicate `steps = n` answers false exactly when the counter is not `n`; step (a) does not write the counter. -/
theorem State.silent_iff_steps_ne {s : State} {n : Nat} (bound : s.monitor = .stepsEq n) : s.Silent ↔ s.steps ≠ n := by
  simp [State.Silent, State.shouldStop, bound, Monitor.answer]

/-- With the monitor `steps = n` a run that has `d` steps left to `n` ends in one of the three ways of R120 within `d + 1`
steps (R145). -/
theorem run_stepsEq_ends (d : Nat) {s : State} (running : s.status = .running) (bound : s.monitor = .stepsEq (s.steps + d))
    (fits : s.steps + d < 2 ^ s.SW) :
    ∃ t, Host.Core.run core (d + 1) s = .next t ∧
      (t.status = .halted ∨ t.status = .stopped ∨ t.status = .aborted) := by
  induction d generalizing s with
  | zero =>
    obtain ⟨t, e, h⟩ := exists_transition s
    refine ⟨t, run_succ 0 e, (h.status_of_running running).resolve_left fun goesOn => ?_⟩
    exact (State.silent_iff_steps_ne bound).1 (h.silent_of_goes_on running goesOn) rfl
  | succ d ih =>
    obtain ⟨t, e, h⟩ := exists_transition s
    rcases h.status_of_running running with goesOn | ended
    · obtain ⟨-, hSW, -, -, -, hmonitor⟩ := stepLeavesProgramAndLatchesAlone s t e
      have counted : t.steps = s.steps + 1 := by
        rw [h.steps_eq running, if_pos goesOn, Nat.mod_eq_of_lt (by omega)]
      have left : t.steps + d = s.steps + (d + 1) := by omega
      obtain ⟨u, eu, ended⟩ := ih goesOn (by rw [hmonitor, left, bound]) (by rwa [hSW, left])
      exact ⟨u, (run_succ _ e).trans eu, ended⟩
    · exact ⟨t, (run_succ _ e).trans (run_of_not_running (State.not_running_of_ended ended) _), ended⟩

end Sys2Proof.Machine
end

section
/-! The statements of 60_exceptions.md. -/

namespace Sys2Proof.Machine

/-- Settles O14: the abort is taken from the bank that step (a) left. -/
theorem illFormedInstructionAbortsPrecisely : Obligations.IllFormedInstructionAbortsPrecisely :=
  fun s _ _ _ ready bad => ⟨s.setReg s.ipr s.ip, ready.step_of_firstBad bad, State.setReg_sameButReg ready.ipr s.ip,
    ready.reg_ipr⟩

/-- Settles O36: ABORTED is held as any end of a run is; well-formedness is kept, and rules out both aborts. -/
theorem abortIsFinalAndOnlyIllFormedRunsAbort : Obligations.AbortIsFinalAndOnlyIllFormedRunsAbort := by
  refine fun k s => ⟨fun aborted => run_of_not_running (by simp [aborted]) k, fun hwf hs => ?_⟩
  obtain ⟨t, e, hwf'⟩ := hwf.exists_run k
  exact ⟨t, e, hwf', hwf.run_safe hs e⟩

/-- Settles O42: with no monitor both runs are runs of one observed state, with the one counter or the other. -/
theorem stepCountDoesNotSteerTheRun : Obligations.StepCountDoesNotSteerTheRun := by
  intro k s n absent
  have observed (m : Nat) : s.observed .absent m = { s with steps := m } := by rw [State.observed, ← absent]
  obtain ⟨w, a, b, ea, eb, -⟩ := run_observed k s s.steps n
  rw [observed] at ea eb
  exact ⟨w.observed .absent a, b, ea, eb, fun hwf hs => hwf.run_safe hs ea⟩

/-- Settles O58: the run has ended by the bound, and the end of a well-formed one is not ABORTED. -/
theorem stepBoundEndsTheRun : Obligations.StepBoundEndsTheRun := by
  intro s n running bound hle fits
  obtain ⟨d, rfl⟩ := Nat.exists_eq_add_of_le hle
  obtain ⟨t, e, ended⟩ := run_stepsEq_ends d running bound fits
  rw [Nat.add_sub_cancel_left]
  refine ⟨t, e, State.not_running_of_ended ended, fun hwf => ?_⟩
  have safe : t.Safe := hwf.run_safe (by simp [running]) e
  exact ended.imp_right fun h => h.resolve_right safe

/-- Settles O16: a step iterates in RUNNING only. -/
theorem notRunningHoldsItsState : Obligations.NotRunningHoldsItsState :=
  fun _ => step_of_not_running

/-- Settles O49: of the commands an aborted machine performs, the reads change nothing, and the program and the monitor are
no register and no control state. -/
theorem onlyConstructLeavesAborted : Obligations.OnlyConstructLeavesAborted := by
  refine fun s aborted => ⟨step_of_not_running (by simp [aborted]), fun c r t hc h => ?_⟩
  cases performs_of_hostCommand h with
  | construct => exact absurd rfl hc
  | run _ notAborted | writeReg _ notAborted => exact absurd aborted notAborted
  | readReg | readCr | present | attach => exact ⟨aborted, rfl, rfl, rfl, rfl, rfl, rfl⟩

end Sys2Proof.Machine
end

section
/-! SUPPORT. What the host may do in each status (70_reset_and_hazards.md R159, second column), and that the status is never
in the way of it. -/

namespace Sys2Proof.Machine

/-- The row of ABORTED in R159. -/
theorem hostMay_aborted_iff {c : HostCommand} :
    hostMay c .aborted = true ↔ (∃ i, c = .readReg i) ∨ (∃ k, c = .readCr k) ∨ c = .construct := by
  cases c <;> simp [hostMay]

theorem not_running_of_hostMay {c : HostCommand} {status : Status} (may : hostMay c status = true) :
    status ≠ .running := by
  rintro rfl
  cases may

/-- A command that the host may issue, but not to an aborted machine, finds a machine that is not aborted. -/
theorem not_aborted_of_hostMay {c : HostCommand} {status : Status} (may : hostMay c status = true)
    (mayNot : hostMay c .aborted = false) : status ≠ .aborted := by
  rintro rfl
  cases mayNot.symm.trans may

/-- The image of a program of legal length is accepted at every width: at width 0 only the empty program is that short. -/
theorem Program.ofImage_encodeProgram_of_short {W : Nat} {P : List Instr} (hP : ∀ i ∈ P, i.fits W)
    (short : P.length < 2 ^ (W - 1)) : Program.ofImage W (encodeProgram W P) = some (Program.ofInstrs W P) := by
  cases W with
  | zero =>
    obtain rfl : P = [] := List.length_eq_zero_iff.1 (Nat.lt_one_iff.1 short)
    rfl
  | succ W => exact Program.ofImage_encodeProgram (Nat.succ_pos W) hP

/-- CR0 to CR6 exist (10_state.md R20). -/
theorem State.exists_controlRegister (s : State) {k : Nat} (hk : k < 7) : ∃ r, s.controlRegister k = some r := by
  interval_cases k <;> exact ⟨_, rfl⟩

/-- What the host may do is performed, if the operands are legal. -/
theorem exists_performs_of_legal {c : HostCommand} {s : State} (may : hostMay c s.status = true) (legal : c.Legal s) :
    ∃ r t, Performs s c r t := by
  have notRunning := not_running_of_hostMay may
  cases c with
  | construct => exact ⟨_, _, .construct⟩
  | run ipr ip =>
    obtain ⟨hipr, hip⟩ := legal
    exact ⟨_, _, .run notRunning (not_aborted_of_hostMay may rfl) hipr hip⟩
  | readReg i => exact ⟨_, _, .readReg notRunning legal⟩
  | writeReg i v =>
    obtain ⟨hi, hv⟩ := legal
    exact ⟨_, _, .writeReg notRunning (not_aborted_of_hostMay may rfl) hi hv⟩
  | readCr k =>
    obtain ⟨r, content⟩ := s.exists_controlRegister legal
    exact ⟨_, _, .readCr notRunning content⟩
  | present image =>
    obtain ⟨P, hP, short, rfl⟩ := legal
    exact ⟨_, _, .present notRunning (Program.ofImage_encodeProgram_of_short hP short) short⟩
  | attach m => exact ⟨_, _, .attach notRunning⟩

/-- A refusal of what the host may do names the operands: each port is past its questions about the status. -/
theorem not_refused_for_status {c : HostCommand} {s : State} (may : hostMay c s.status = true) :
    hostCommand c s ≠ .refused .whileRunning ∧ hostCommand c s ≠ .refused .whileAborted := by
  have notRunning := not_running_of_hostMay may
  cases c with
  | construct => exact ⟨nofun, nofun⟩
  | run | writeReg =>
    have notAborted := not_aborted_of_hostMay may rfl
    simp only [hostCommand, State.hostRun, State.hostWriteReg, if_neg notRunning, if_neg notAborted]
    split_ifs <;> exact ⟨nofun, nofun⟩
  | readReg =>
    simp only [hostCommand, State.hostReadReg, if_neg notRunning]
    split_ifs <;> exact ⟨nofun, nofun⟩
  | readCr =>
    simp only [hostCommand, State.hostReadCr, if_neg notRunning]
    split <;> exact ⟨nofun, nofun⟩
  | present =>
    simp only [hostCommand, State.hostPresent, if_neg notRunning]
    split
    · exact ⟨nofun, nofun⟩
    · split_ifs <;> exact ⟨nofun, nofun⟩
  | attach =>
    rw [(Performs.attach notRunning).hostCommand_eq]
    exact ⟨nofun, nofun⟩

end Sys2Proof.Machine
end

section
/-! The statements of 70_reset_and_hazards.md. -/

namespace Sys2Proof.Machine

/-- Settles O51: what the host may do passes each port's questions about the status, and legal operands pass the rest. -/
theorem allowedCommandsAreAccepted : Obligations.AllowedCommandsAreAccepted := by
  refine ⟨fun _ => ⟨rfl, rfl, rfl, rfl, hostMay_aborted_iff⟩, fun c s may => ⟨fun legal => ?_, not_refused_for_status may⟩⟩
  obtain ⟨r, t, performed⟩ := exists_performs_of_legal may legal
  exact ⟨r, t, performed.hostCommand_eq⟩

/-- Settles O52: the port of the monitor asks only whether the machine is running. -/
theorem attachChangesOnlyTheMonitor : Obligations.AttachChangesOnlyTheMonitor := by
  refine fun s m => ⟨fun status => ?_, fun running => hostCommand_of_running running nofun⟩
  have notRunning : s.status ≠ .running := by
    rcases status with h | h | h <;> simp [h]
  exact (Performs.attach notRunning).hostCommand_eq

end Sys2Proof.Machine
end
